-- ==== Sys2Proof/Word.lean ====
section
/-! DEFINITION. The words of the block: its two fixed widths as bit vectors.

The input element, whose width `CU_W` is a parameter, is "an unsigned integer in `[0, 2^CU_W - 1]`"
(00_scope.md R5), and lengths and positions are natural numbers (R13): both are plain `Nat`, and the
machine's invariant keeps their bounds. -/

namespace Sys2Proof

/-- Eight bits: an `OUT_BUF` element, a command word, the status register (00_scope.md section 3,
fixed constants). -/
abbrev Byte := BitVec 8

/-- Six bits: the value a symbol stands for (00_scope.md glossary, "value"). -/
abbrev Sextet := BitVec 6

end Sys2Proof
end

