-- ==== Sys2Proof/Config.lean ====
section
/-! DEFINITION. The implementation parameters of 00_scope.md section 3, the constant data of the
block, and the values the spec leaves unspecified. -/

namespace Sys2Proof

/-- `PAD_STRIP` (00_scope.md R9): when the decoder removes trailing padding. -/
inductive PadStrip where
  /-- `DOC`: whatever the filtered length. -/
  | doc
  /-- `ALIGNED`: only when the filtered length is a multiple of 4. -/
  | aligned
deriving DecidableEq, Repr

/-- The parameters of one block, before any check (00_scope.md R5 to R10). -/
structure Params where
  /-- `CU_W`, the width of an input element (R5). -/
  cuW : Nat
  /-- `IN_CAP`, the number of input elements (R6). -/
  inCap : Nat
  /-- `LEN_W`, the width of the length and position registers (R7). -/
  lenW : Nat
  /-- `ALPHABET`, the symbol codes in the order of their 6-bit values (R8). -/
  alphabet : List Byte
  /-- `PAD_STRIP` (R9). -/
  padStrip : PadStrip
  /-- `N_INST`, the number of copies an integrator places (R10). -/
  nInst : Nat
deriving DecidableEq, Repr

/-- `OUT_CAP = 4 * ceil(IN_CAP / 3)` (00_scope.md R6). -/
def Params.outCap (p : Params) : Nat := 4 * ((p.inCap + 2) / 3)

/-- `PAD`, the character `=` (40_alphabet_lut.md R112). -/
def pad : Byte := 0x3D

/-- The five whitespace codes: space, tab, LF, FF, CR (41_whitespace_filter.md R130). -/
def whitespace : List Byte := [0x20, 0x09, 0x0A, 0x0C, 0x0D]

/-- The default alphabet, `A-Z a-z 0-9 + /` (40_alphabet_lut.md R111, which takes it from RFC 4648). -/
def alphabetRFC4648 : List Byte :=
  [0x41, 0x42, 0x43, 0x44, 0x45, 0x46, 0x47, 0x48, 0x49, 0x4A, 0x4B, 0x4C, 0x4D, 0x4E, 0x4F, 0x50] ++
  [0x51, 0x52, 0x53, 0x54, 0x55, 0x56, 0x57, 0x58, 0x59, 0x5A, 0x61, 0x62, 0x63, 0x64, 0x65, 0x66] ++
  [0x67, 0x68, 0x69, 0x6A, 0x6B, 0x6C, 0x6D, 0x6E, 0x6F, 0x70, 0x71, 0x72, 0x73, 0x74, 0x75, 0x76] ++
  [0x77, 0x78, 0x79, 0x7A, 0x30, 0x31, 0x32, 0x33, 0x34, 0x35, 0x36, 0x37, 0x38, 0x39, 0x2B, 0x2F]

/-- The reference configuration REF (00_scope.md section 3). -/
def Params.ref : Params where
  cuW := 16
  inCap := 3072
  lenW := 16
  alphabet := alphabetRFC4648
  padStrip := .doc
  nInst := 1

/-- FREE VALUE (93_implementation_defined.md U1; log entry 4): what an `IN_BUF` element that nothing
has written since reset holds, for each reset of each copy and each index. No body: nothing can be
proved of it. A reader takes it modulo `2^CU_W`. -/
opaque Config.freeIn : Nat → Nat → Nat

/-- FREE VALUE (93_implementation_defined.md U2 and U4; log entry 5): what an `OUT_BUF` element that no
successful operation has written since reset holds. -/
opaque Config.freeOut : Nat → Nat → Byte

end Sys2Proof
end

