-- ==== Sys2Proof/Syntax.lean ====
section
/-! DEFINITION. The instructions: the two commands of spec/opcode_table.json. -/

namespace Sys2Proof

/-- A command (30_encoding.md R91: "exactly two pure operations"). Neither has an operand field: the
source `IN_BUF[0..IN_LEN)` and the destination `OUT_BUF`, `OUT_LEN` are implicit (R92). -/
inductive Instr where
  /-- `ENC`: base64 encode (43_encoder.md R190). -/
  | enc
  /-- `DEC`: forgiving base64 decode (42_decoder.md R151). -/
  | dec
deriving DecidableEq, Repr

end Sys2Proof
end

