-- ==== Sys2Proof/WellFormed.lean ====
section
/-! DEFINITION. Which commands and which configurations are well formed. A configuration that violates
a constraint has no meaning at all (93_implementation_defined.md U8, "refuse"): `Config` pairs the
parameters with the check, so an ill-formed one cannot be built. -/

namespace Sys2Proof

/-- Every command is well formed: format `C8` has no operand field to check (30_encoding.md R90). -/
def Instr.wf : Instr → Bool
  | .enc => true
  | .dec => true

/-- `CU_W >= 9` (00_scope.md R5). -/
def Params.cuWOk (p : Params) : Bool := decide (9 ≤ p.cuW)

/-- `IN_CAP >= 1` (00_scope.md R6). -/
def Params.inCapOk (p : Params) : Bool := decide (1 ≤ p.inCap)

/-- `2^LEN_W > OUT_CAP` (00_scope.md R7). -/
def Params.lenWOk (p : Params) : Bool := decide (p.outCap < 2 ^ p.lenW)

/-- "exactly 64" symbols (00_scope.md R8). -/
def Params.alphabetSizeOk (p : Params) : Bool := decide (p.alphabet.length = 64)

/-- The symbols are pairwise distinct (00_scope.md R8 (a)). -/
def Params.alphabetDistinctOk (p : Params) : Bool := decide p.alphabet.Nodup

/-- Every symbol is ASCII (00_scope.md R8 (b)). -/
def Params.alphabetAsciiOk (p : Params) : Bool := p.alphabet.all fun c => decide (c < 0x80)

/-- No symbol is the padding symbol (00_scope.md R8 (c)). -/
def Params.alphabetPadOk (p : Params) : Bool := p.alphabet.all fun c => decide (c ≠ pad)

/-- No symbol is a whitespace code (00_scope.md R8 (d)). -/
def Params.alphabetSpaceOk (p : Params) : Bool := p.alphabet.all fun c => decide (c ∉ whitespace)

/-- `N_INST >= 1` (00_scope.md R10). -/
def Params.nInstOk (p : Params) : Bool := decide (1 ≤ p.nInst)

/-- All constraints of 00_scope.md R5 to R10. -/
def Params.wf (p : Params) : Bool :=
  p.cuWOk && p.inCapOk && p.lenWOk && p.alphabetSizeOk && p.alphabetDistinctOk && p.alphabetAsciiOk
    && p.alphabetPadOk && p.alphabetSpaceOk && p.nInstOk

/-- A configuration: parameters that meet every constraint. Fixed for the life of a block
(10_state.md R32, 40_alphabet_lut.md R117). -/
structure Config extends Params where
  ok : toParams.wf = true
deriving DecidableEq, Repr

/-- Building a block from parameters: an ill-formed configuration is refused (U8). -/
def Config.ofParams (p : Params) : Option Config :=
  if h : p.wf = true then some { toParams := p, ok := h } else none

/-- REF as a checked configuration. -/
def Config.ref : Config := { toParams := Params.ref, ok := by decide }

/-- The same block built with the other `PAD_STRIP` mode: no constraint mentions the mode. -/
def Config.withPadStrip (c : Config) (m : PadStrip) : Config :=
  { toParams := { c.toParams with padStrip := m }, ok := c.ok }

end Sys2Proof
end

