-- ==== Sys2Proof/Decode.lean ====
section
/-! DEFINITION. The command word: decoder and encoder, from the opcode table (30_encoding.md R90, R91). -/

namespace Sys2Proof

/-- One row of the opcode table: a word is the row's command when `word & mask = pattern`. -/
structure OpcodeRow where
  instr : Instr
  mask : Byte
  pattern : Byte
deriving DecidableEq, Repr

/-- The opcode assignments of 30_encoding.md R91. -/
def opcodeTable : List OpcodeRow :=
  [{ instr := .enc, mask := 0xFF, pattern := 0x01 },
   { instr := .dec, mask := 0xFF, pattern := 0x02 }]

/-- Why a word is no command. -/
inductive DecodeError where
  /-- One of the 254 illegal opcodes (30_encoding.md R93): the machine goes on and records
  `IllegalCommand`. -/
  | illegalCommand (word : Byte)
deriving DecidableEq, Repr

/-- Whether a word matches a row. -/
def OpcodeRow.isMatch (r : OpcodeRow) (w : Byte) : Bool := (w &&& r.mask) == r.pattern

/-- The decoder, total on every word of format `C8`. -/
def decode (w : Byte) : Except DecodeError Instr :=
  match opcodeTable.find? fun r => r.isMatch w with
  | some r => .ok r.instr
  | none => .error (.illegalCommand w)

/-- The encoder: the command word the host writes to `REG.CMD`. -/
def encode : Instr → Byte
  | .enc => 0x01
  | .dec => 0x02

/-- The byte an instruction of `nbits` table bits makes: bits at and above `nbits` are 0. -/
def tableByte (nbits w : Nat) : Byte := BitVec.ofNat 8 (w % 2 ^ nbits)

/-- The command the decoder reads from a word numbered as the opcode table numbers it. A command is
one 8-bit word (30_encoding.md R90), so a longer instruction does not exist. -/
def decodeTableWord (nbits w : Nat) : Option Instr :=
  if nbits ≤ 8 then (decode (tableByte nbits w)).toOption else none

end Sys2Proof
end

