-- ==== Sys2Proof/Machine/State.lean ====
section
/-! DEFINITION. The state of one copy of the block, with the two agents' pending moves (10_state.md;
00_scope.md R15), as plain data; why a step can stop; the state after reset. -/

namespace Sys2Proof.Machine

/-- A host-visible space (20_memory.md R60). -/
inductive Space where
  /-- `REG`, the six registers. -/
  | reg
  /-- `IN`, the input buffer. -/
  | inp
  /-- `OUT`, the output buffer. -/
  | out
deriving DecidableEq, Repr

/-- One host access: one whole element (20_memory.md R61). -/
inductive Access where
  /-- `HostRead(space, idx)`. -/
  | read (sp : Space) (idx : Nat)
  /-- `HostWrite(space, idx, v)`. -/
  | write (sp : Space) (idx : Nat) (v : Nat)
deriving DecidableEq, Repr

/-- What the HOST agent means to do next (00_scope.md R15; 30_encoding.md R98 for the pseudo-instructions
whose expansion depends on what the host reads). -/
inductive HostStep where
  /-- One access. -/
  | access (a : Access)
  /-- `WAIT`: read `STATUS` until `DONE` is set. -/
  | wait
  /-- `MOVE`: copy the result into the argument buffer. -/
  | move
  /-- The part of `MOVE` for one index: read `OUT[j]`, then write that value to `IN[j]`. -/
  | copyOut (j : Nat)
  /-- The reset input takes this level: asserted, or released (70_reset_and_hazards.md R250, R251). -/
  | reset (asserted : Bool)
deriving DecidableEq, Repr

/-- The two agents (00_scope.md R15). -/
inductive Agent where
  | host
  | engine
deriving DecidableEq, Repr

/-- The part of a buffer that has been written since reset: (index, value) pairs, indices strictly
rising. An index that is not listed has not been written since reset. -/
abbrev Memory (α : Type) := List (Nat × α)

/-- The canonical form of a buffer's contents. -/
abbrev Memory.wf {α : Type} (m : Memory α) : Prop := m.Pairwise fun x y => x.1 < y.1

/-- One copy of the block and what its agents are about to do.
The first eight fields after the configuration are the state of 10_state.md's summary table, and
`resetIn` is the level of the block's input; the last four are the model's own: the seed of the
unspecified values, and the HOST agent. -/
structure State where
  /-- The configuration of this block: fixed, no step changes it. -/
  cfg : Config
  /-- `REG.STATUS`, 8 bits (10_state.md R24). -/
  status : Byte
  /-- `REG.IN_LEN`, `LEN_W` bits (10_state.md R25). -/
  inLen : Nat
  /-- `REG.OUT_LEN`, `LEN_W` bits (10_state.md R26). -/
  outLen : Nat
  /-- `REG.ERR_POS`, `LEN_W` bits (10_state.md R27). -/
  errPos : Nat
  /-- `REG.ERR_VAL`, `CU_W` bits (10_state.md R28). -/
  errVal : Nat
  /-- `IN_BUF`, `IN_CAP` elements of `CU_W` bits (10_state.md R30). -/
  inBuf : Memory Nat
  /-- `OUT_BUF`, `OUT_CAP` elements of 8 bits (10_state.md R31). -/
  outBuf : Memory Byte
  /-- `OP_LATCH`, 8 bits, hidden (10_state.md R33). -/
  opLatch : Byte
  /-- The reset input: whether it is asserted (70_reset_and_hazards.md R250). -/
  resetIn : Bool
  /-- MODEL'S OWN: which unspecified buffer contents this copy has since its last reset. -/
  freeSeed : Nat
  /-- MODEL'S OWN: the host steps still to come, in the host's order (20_memory.md R69). -/
  script : List HostStep
  /-- MODEL'S OWN: whose turn it is, for as many turns as are fixed beforehand. -/
  turns : List Agent
  /-- MODEL'S OWN: the values the host's reads have returned, the latest first. -/
  seen : List Nat
deriving DecidableEq, Repr

/-- The faults of the machine: NONE. No access and no command word stops the block: out-of-range and
read-only accesses have "a defined, harmless effect" (20_memory.md R65), and a failure is recorded in
registers and "does not redirect control anywhere" (60_exceptions.md, opening paragraph and R218). -/
inductive Fault where
deriving DecidableEq, Repr

/-- The refusals of the machine. -/
inductive Refusal where
  /-- A command that has no meaning yet: raised by `exec`'s refused arms only, of which there are none.
  Safe: nothing is claimed of such a command. -/
  | notModelled (mnemonic : String)
deriving DecidableEq, Repr

/-- The state right after reset of a block of configuration `c` (10_state.md R50): `STATUS`, `IN_LEN`,
`OUT_LEN`, `ERR_POS`, `ERR_VAL` are 0 and the buffers are unspecified, so nothing is listed.
The reset input has been released.
`OP_LATCH` is unspecified and not observable (93_implementation_defined.md U3): 0, DESIGN CHOICE (log
entry 7). -/
def State.resetWith (c : Config) (seed : Nat) : State where
  cfg := c
  status := 0x00
  inLen := 0
  outLen := 0
  errPos := 0
  errVal := 0
  inBuf := []
  outBuf := []
  opLatch := 0x00
  resetIn := false
  freeSeed := seed
  script := []
  turns := []
  seen := []

/-- The machine right after reset, in the reference configuration (log entry 1), with no host step to
come. -/
def State.reset : State := State.resetWith Config.ref 0

end Sys2Proof.Machine
end

