-- ==== Sys2Proof/Machine/Flags.lean ====
section
/-! DEFINITION. The status register: its fields, the outcome codes, and the words written to it
(10_state.md R24; 60_exceptions.md R211, R213). -/

namespace Sys2Proof.Machine

/-- The outcome kinds (60_exceptions.md R211). -/
inductive Err where
  | ok
  | invalidCharacter
  | byteRange
  | illegalCommand
  | length
deriving DecidableEq, Repr

/-- The sub-causes of `InvalidCharacterError`, and none (60_exceptions.md R213). -/
inductive Sub where
  | none
  | len1
  | padlen
  | badchar
  | dangling
deriving DecidableEq, Repr

/-- The outcome of an operation: the whole result, or a failure with its record
(60_exceptions.md R212). -/
inductive OpResult where
  | ok (out : List Byte)
  | fail (err : Err) (sub : Sub) (pos : Nat) (val : Nat)
deriving DecidableEq, Repr

/-- `STATUS.ERR` for an outcome kind (60_exceptions.md R211). -/
def Err.code : Err → BitVec 3
  | .ok => 0
  | .invalidCharacter => 1
  | .byteRange => 2
  | .illegalCommand => 3
  | .length => 4

/-- `STATUS.SUB` for a sub-cause (60_exceptions.md R213). -/
def Sub.code : Sub → BitVec 3
  | .none => 0
  | .len1 => 1
  | .padlen => 2
  | .badchar => 3
  | .dangling => 4

/-- `SUB : ERR : 0b10`, the status after a completion (10_state.md R40): `DONE = 1`, `BUSY = 0`. -/
def doneStatus (err : Err) (sub : Sub) : Byte := sub.code ++ err.code ++ (0b10 : BitVec 2)

/-- `0x01`, the status while an operation is in progress (10_state.md R41). -/
def busyStatus : Byte := 0x01

/-- `STATUS.BUSY`, bit 0. -/
def State.busy (s : State) : Bool := s.status.getLsbD 0

/-- `STATUS.DONE`, bit 1. -/
def State.done (s : State) : Bool := s.status.getLsbD 1

/-- `STATUS.ERR`, bits 4:2. -/
def State.err (s : State) : BitVec 3 := s.status.extractLsb' 2 3

/-- `STATUS.SUB`, bits 7:5. -/
def State.sub (s : State) : BitVec 3 := s.status.extractLsb' 5 3

/-- The level output `done_o`, "equal to `REG.STATUS.DONE` at all times" (60_exceptions.md R225). -/
def State.doneO (s : State) : Bool := s.done

end Sys2Proof.Machine
end

