-- ==== Sys2Proof/Machine/Operands.lean ====
section
/-! DEFINITION. What a command reads: buffer elements, the implicit argument, the look-up tables and
the classes of input elements (30_encoding.md R92, R94; 40_alphabet_lut.md; 41_whitespace_filter.md R130). -/

namespace Sys2Proof.Machine

/-- The value written to an index since reset, if any. -/
def Memory.read {α : Type} : Memory α → Nat → Option α
  | [], _ => none
  | (a, v) :: m, i => if a = i then some v else Memory.read m i

/-- `IN_BUF[i]`. An element not written since reset holds a free value of `CU_W` bits, fixed until it
is written (93_implementation_defined.md U1, "any value"; log entry 4). -/
def State.inElem (s : State) (i : Nat) : Nat :=
  (Memory.read s.inBuf i).getD (Config.freeIn s.freeSeed i % 2 ^ s.cfg.cuW)

/-- `OUT_BUF[i]`. An element not written since reset holds a free value
(93_implementation_defined.md U2, U4; log entry 5). -/
def State.outElem (s : State) (i : Nat) : Byte :=
  (Memory.read s.outBuf i).getD (Config.freeOut s.freeSeed i)

/-- The implicit source operand `IN_BUF[0..IN_LEN)`, in index order (30_encoding.md R92; 20_memory.md
R64). -/
def State.argument (s : State) : List Nat := (List.range s.inLen).map s.inElem

/-- `ENC_LUT(v) = ALPHABET[v]` (40_alphabet_lut.md R110). Total: the table has 64 entries, so the
default is never taken. -/
def encLut (c : Config) (v : Sextet) : Byte := c.alphabet.getD v.toNat 0

/-- `DEC_LUT(u)`: the value whose symbol is `u`, compared on all bits of `u`, or none
(40_alphabet_lut.md R113). -/
def decLut (c : Config) (u : Nat) : Option Sextet :=
  (c.alphabet.findIdx? fun sym => sym.toNat == u).map (BitVec.ofNat 6)

/-- The whitespace predicate, on all bits of `u` (41_whitespace_filter.md R130). -/
def isWs (u : Nat) : Bool := whitespace.any fun b => b.toNat == u

/-- Whether an element is the padding symbol, on all bits (40_alphabet_lut.md R112). -/
def isPad (u : Nat) : Bool := pad.toNat == u

/-- The class of an element the decoder reads (30_encoding.md R94). -/
inductive ElemClass where
  | ws
  | pad
  | sym (v : Sextet)
  | invalid
deriving DecidableEq, Repr

/-- The class of an element (30_encoding.md R94). -/
def classify (c : Config) (u : Nat) : ElemClass :=
  if isWs u then .ws
  else if isPad u then .pad
  else
    match decLut c u with
    | some v => .sym v
    | none => .invalid

/-- `b = a[7:0]`: the byte of an element that passed the range check (43_encoder.md R180). -/
def byteOf (u : Nat) : Byte := BitVec.ofNat 8 u

end Sys2Proof.Machine
end

