-- ==== Sys2Proof/Machine/Ops.lean ====
section
/-! DEFINITION. The named operations every meaning goes through: buffer writes, the commit of an
outcome (a failure's entry among it), command acceptance, and reset (10_state.md section 5,
60_exceptions.md R218, 70_reset_and_hazards.md R250). -/

namespace Sys2Proof.Machine

/-- Write one element, keeping the canonical form. -/
def Memory.write {α : Type} : Memory α → Nat → α → Memory α
  | [], i, v => [(i, v)]
  | (a, w) :: m, i, v =>
    if i < a then (i, v) :: (a, w) :: m
    else if i = a then (i, v) :: m
    else (a, w) :: Memory.write m i v

/-- Write consecutive elements from index `i` on, in ascending order (20_memory.md R64). -/
def Memory.writeAll {α : Type} (m : Memory α) (i : Nat) : List α → Memory α
  | [] => m
  | v :: vs => Memory.writeAll (Memory.write m i v) (i + 1) vs

/-- The commit of a success (10_state.md R40, case `Ok`). -/
def commitOk (s : State) (out : List Byte) : State :=
  { s with
    outBuf := Memory.writeAll s.outBuf 0 out
    outLen := out.length
    errPos := 0
    errVal := 0
    status := doneStatus .ok .none }

/-- A FAILURE'S ENTRY, the block's one exception mechanism (10_state.md R40, case `Fail`;
60_exceptions.md R218): the record is written, `OUT_LEN` becomes 0, `OUT_BUF` is not written, control
goes nowhere. There is no return (60_exceptions.md R220): the next acceptance replaces the record. -/
def commitFail (s : State) (err : Err) (sub : Sub) (pos : Nat) (val : Nat) : State :=
  { s with
    outLen := 0
    errPos := pos
    errVal := val
    status := doneStatus err sub }

/-- The one indivisible update at the end of an operation (10_state.md R40). -/
def commit (s : State) : OpResult → State
  | .ok out => commitOk s out
  | .fail err sub pos val => commitFail s err sub pos val

/-- `LengthError` comes before either command's own tests (10_state.md R40; 60_exceptions.md R216,
R217). -/
def checkLength (s : State) (r : OpResult) : OpResult :=
  if s.inLen > s.cfg.inCap then .fail .length .none s.inLen 0 else r

/-- The outcome of a word that is no command (60_exceptions.md R215): `ERR_VAL` is the latched word,
zero-extended. -/
def illegalResult (s : State) : OpResult := .fail .illegalCommand .none 0 s.opLatch.toNat

/-- Command acceptance (10_state.md R41): every value is accepted. -/
def accept (s : State) (c : Byte) : State := { s with opLatch := c, status := busyStatus }

/-- The reset input is asserted (70_reset_and_hazards.md R250, R251): the block's state becomes that of
10_state.md R50, an operation in progress is abandoned, and the unspecified buffer contents are new
ones. The HOST agent is not the block: what it means to do and has read stays (log entry 11). -/
def assertReset (s : State) : State :=
  { State.resetWith s.cfg (s.freeSeed + s.cfg.nInst) with
    resetIn := true
    script := s.script
    turns := s.turns
    seen := s.seen }

/-- The reset input is released: the state stays that of 10_state.md R50 (70_reset_and_hazards.md
R250), and the block takes accesses again. That the unspecified contents and the latch stay too is log
entry 11, DESIGN CHOICE. -/
def releaseReset (s : State) : State := { s with resetIn := false }

/-- The reset input takes a level: an input that has the level already does not change
(log entry 11, DESIGN CHOICE). -/
def setReset (s : State) (asserted : Bool) : State :=
  if asserted = s.resetIn then s else if asserted then assertReset s else releaseReset s

end Sys2Proof.Machine
end

