-- ==== Sys2Proof/Machine/Decoder.lean ====
section
/-! DEFINITION. `base64_decoder` and the `DEC` command (42_decoder.md), with its first stage, the
whitespace filter (41_whitespace_filter.md). -/

namespace Sys2Proof.Machine

/-- The whitespace filter with its index map: the elements that are not whitespace, in order, each
with its position in `a` (41_whitespace_filter.md R131, R132). -/
def filterWs (a : List Nat) : List (Nat × Nat) := a.zipIdx.filter fun x => !isWs x.1

/-- `normalize(a)` (41_whitespace_filter.md R131). -/
def normalizeWs (a : List Nat) : List Nat := (filterWs a).map Prod.fst

/-- `idx`, the index map (41_whitespace_filter.md R132). -/
def indexMap (a : List Nat) : List Nat := (filterWs a).map Prod.snd

/-- `t`, the number of consecutive `PAD` at the end of `s` (42_decoder.md R140). -/
def trailingPads (s : List Nat) : Nat := (s.reverse.takeWhile isPad).length

/-- `p`, the number of padding symbols removed (42_decoder.md R143). -/
def padsRemoved (m : PadStrip) (s : List Nat) : Nat :=
  match m with
  | .doc => min (trailingPads s) 2
  | .aligned => if s.length % 4 = 0 then min (trailingPads s) 2 else 0

/-- The unpacker for a full group (42_decoder.md R147): the first value most significant. -/
def unpack4 (v0 v1 v2 v3 : Sextet) : List Byte :=
  let w : BitVec 24 := v0 ++ v1 ++ v2 ++ v3
  [w.extractLsb' 16 8, w.extractLsb' 8 8, w.extractLsb' 0 8]

/-- The unpacker for a final group of 3; the two low bits are dropped (42_decoder.md R148). -/
def unpack3 (v0 v1 v2 : Sextet) : List Byte :=
  let w : BitVec 18 := v0 ++ v1 ++ v2
  [w.extractLsb' 10 8, w.extractLsb' 2 8]

/-- The unpacker for a final group of 2; the four low bits are dropped (42_decoder.md R148). -/
def unpack2 (v0 v1 : Sextet) : List Byte :=
  let w : BitVec 12 := v0 ++ v1
  [w.extractLsb' 4 8]

/-- The unpacker, group by group in ascending order (42_decoder.md R147, R148). A final group of one
symbol does not reach it (R146). -/
def unpackAll : List Sextet → List Byte
  | v0 :: v1 :: v2 :: v3 :: rest => unpack4 v0 v1 v2 v3 ++ unpackAll rest
  | [v0, v1, v2] => unpack3 v0 v1 v2
  | [v0, v1] => unpack2 v0 v1
  | [_] => []
  | [] => []

/-- Stage 4 finds no fault: the first element of the core that is no symbol, with its position in the
argument (42_decoder.md R145). -/
def firstBad (c : Config) (core : List (Nat × Nat)) : Option (Nat × Nat) :=
  core.find? fun x => (decLut c x.1).isNone

/-- Stages 4 and 5 on the core (42_decoder.md R145 to R148). -/
def decodeCore (c : Config) (core : List (Nat × Nat)) : OpResult :=
  match firstBad c core with
  | some (u, i) => .fail .invalidCharacter .badchar i u
  | none =>
    if core.length % 4 = 1 then .fail .invalidCharacter .dangling core.length 0
    else .ok (unpackAll (core.filterMap fun x => decLut c x.1))

/-- Stage 3 with its length test, then the core (42_decoder.md R143, R144). -/
def decodeStripped (c : Config) (s : List (Nat × Nat)) (p : Nat) : OpResult :=
  if p = 1 ∧ (s.length - p) % 4 = 1 then .fail .invalidCharacter .padlen (s.length - p) 0
  else decodeCore c (s.take (s.length - p))

/-- `decode(a)`, the five stages in order (42_decoder.md R140). -/
def b64Decode (c : Config) (a : List Nat) : OpResult :=
  if (filterWs a).length % 4 = 1 then .fail .invalidCharacter .len1 (filterWs a).length 0
  else decodeStripped c (filterWs a) (padsRemoved c.padStrip (normalizeWs a))

/-- `DEC`, at `complete` (42_decoder.md R151). -/
def execDec (s : State) : Host.Outcome State Fault Refusal :=
  .next (commit s (checkLength s (b64Decode s.cfg s.argument)))

end Sys2Proof.Machine
end

