-- ==== Sys2Proof/Machine/Encoder.lean ====
section
/-! DEFINITION. `base64_encoder` and the `ENC` command (43_encoder.md). -/

namespace Sys2Proof.Machine

/-- The byte range checker (43_encoder.md R181): the first element above 255, with its index. -/
def firstWide (a : List Nat) : Option (Nat × Nat) := a.zipIdx.find? fun x => decide (x.1 > 0xFF)

/-- The regrouper for a full group (43_encoder.md R182): 24 bits, the first byte most significant, as
four 6-bit values. -/
def regroup3 (b0 b1 b2 : Byte) : List Sextet :=
  let w : BitVec 24 := b0 ++ b1 ++ b2
  [w.extractLsb' 18 6, w.extractLsb' 12 6, w.extractLsb' 6 6, w.extractLsb' 0 6]

/-- The regrouper for a final group of 2 bytes, with two zero fill bits (43_encoder.md R183). -/
def regroup2 (b0 b1 : Byte) : List Sextet :=
  let w : BitVec 18 := b0 ++ b1 ++ (0 : BitVec 2)
  [w.extractLsb' 12 6, w.extractLsb' 6 6, w.extractLsb' 0 6]

/-- The regrouper for a final group of 1 byte, with four zero fill bits (43_encoder.md R183). -/
def regroup1 (b0 : Byte) : List Sextet :=
  let w : BitVec 12 := b0 ++ (0 : BitVec 4)
  [w.extractLsb' 6 6, w.extractLsb' 0 6]

/-- The padding inserter (43_encoder.md R184): `PAD` until the group has 4 elements. -/
def padGroup (syms : List Byte) : List Byte := syms ++ List.replicate (4 - syms.length) pad

/-- Regrouping, lookup and padding, group by group in ascending order (43_encoder.md R180 to R185). -/
def encodeBytes (c : Config) : List Byte → List Byte
  | b0 :: b1 :: b2 :: rest => padGroup ((regroup3 b0 b1 b2).map (encLut c)) ++ encodeBytes c rest
  | [b0, b1] => padGroup ((regroup2 b0 b1).map (encLut c))
  | [b0] => padGroup ((regroup1 b0).map (encLut c))
  | [] => []

/-- `encode(a)` (43_encoder.md R180): the whole argument is checked before any symbol is produced
(R187). -/
def b64Encode (c : Config) (a : List Nat) : OpResult :=
  match firstWide a with
  | some (u, i) => .fail .byteRange .none i u
  | none => .ok (encodeBytes c (a.map byteOf))

/-- `ENC`, at `complete` (43_encoder.md R190). -/
def execEnc (s : State) : Host.Outcome State Fault Refusal :=
  .next (commit s (checkLength s (b64Encode s.cfg s.argument)))

end Sys2Proof.Machine
end

