-- ==== Sys2Proof/Machine/Port.lean ====
section
/-! DEFINITION. The host port: reads and writes (10_state.md R22 to R29, R42 to R44; 20_memory.md R65),
the HOST agent's steps, and the host notation (30_encoding.md R97, R98). -/

namespace Sys2Proof.Machine

/-- `HostRead(REG, i)` (10_state.md R22): `CMD` reads 0 (R23), an unmapped index reads 0 (R29). -/
def regRead (s : State) : Nat → Nat
  | 0 => 0
  | 1 => s.status.toNat
  | 2 => s.inLen
  | 3 => s.outLen
  | 4 => s.errPos
  | 5 => s.errVal
  | _ => 0

/-- `HostRead(space, i)`: always allowed (10_state.md R43); out of range reads 0 (20_memory.md R65). -/
def hostRead (s : State) : Space → Nat → Nat
  | .reg, i => regRead s i
  | .inp, i => if i < s.cfg.inCap then s.inElem i else 0
  | .out, i => if i < s.cfg.outCap then (s.outElem i).toNat else 0

/-- A write to a register while the block is idle: `CMD` accepts a command (10_state.md R41), `IN_LEN`
is stored (R25), every other register is read-only or unmapped (R29, R44). The port carries a value
at the register's own width (R22): its low bits (log entry 3). -/
def regWrite (s : State) (v : Nat) : Nat → State
  | 0 => accept s (BitVec.ofNat 8 v)
  | 2 => { s with inLen := v % 2 ^ s.cfg.lenW }
  | _ => s

/-- A write to an input element while the block is idle (10_state.md R30; 20_memory.md R65). -/
def inWrite (s : State) (i v : Nat) : State :=
  if i < s.cfg.inCap then { s with inBuf := Memory.write s.inBuf i (v % 2 ^ s.cfg.cuW) } else s

/-- `HostWrite(space, i, v)`: ignored while `BUSY = 1` (10_state.md R42), and while the reset input is
asserted, since the state is then that of R50 (70_reset_and_hazards.md R250; DEDUCED, log
entry 22); `OUT_BUF` is read-only at all times (R44). -/
def hostWrite (s : State) (sp : Space) (i v : Nat) : State :=
  if s.busy || s.resetIn then s
  else
    match sp with
    | .reg => regWrite s v i
    | .inp => inWrite s i v
    | .out => s

/-- The host makes a read: the block does not change (10_state.md R43), the host learns the value. -/
def recordRead (s : State) (sp : Space) (i : Nat) : State :=
  { s with seen := hostRead s sp i :: s.seen }

/-- One access by the host. -/
def hostAccess (s : State) : Access → State
  | .read sp i => recordRead s sp i
  | .write sp i v => hostWrite s sp i v

/-- The host's steps to come become `l`. -/
def State.setScript (s : State) (l : List HostStep) : State := { s with script := l }

/-- The host puts steps in front of the ones it has to come. -/
def State.pushScript (s : State) (l : List HostStep) : State := { s with script := l ++ s.script }

/-- What `MOVE` does once the host knows `OUT_LEN = n` (30_encoding.md R98). -/
def moveExpansion (n : Nat) : List HostStep :=
  (List.range n).map HostStep.copyOut ++ [.access (.write .reg 2 n)]

/-- One step of the HOST agent; `s` has the step taken off its script.
`WAIT` reads `STATUS` and stays in front of the script until `DONE` is set; `MOVE` reads `OUT_LEN` and
goes on as its expansion; `copyOut j` reads `OUT[j]` and goes on as the write of that value, zero-extended
(30_encoding.md R98; 70_reset_and_hazards.md R264). -/
def hostStep (s : State) : HostStep → State
  | .access a => hostAccess s a
  | .wait => if s.done then recordRead s .reg 1 else (recordRead s .reg 1).pushScript [.wait]
  | .move => (recordRead s .reg 3).pushScript (moveExpansion s.outLen)
  | .copyOut j => (recordRead s .out j).pushScript [.access (.write .inp j (hostRead s .out j))]
  | .reset asserted => setReset s asserted

/-- The host's turn: its next step, or nothing where it has none to make. -/
def hostTurn (s : State) : State :=
  match s.script with
  | [] => s
  | h :: rest => hostStep (s.setScript rest) h

/-- `CMD c` (30_encoding.md R97). -/
def lineCmd (c : Byte) : HostStep := .access (.write .reg 0 c.toNat)

/-- `ENC` (30_encoding.md R97). -/
def lineEnc : HostStep := lineCmd (encode .enc)

/-- `DEC` (30_encoding.md R97). -/
def lineDec : HostStep := lineCmd (encode .dec)

/-- `WR IN_LEN, n` (30_encoding.md R97). -/
def lineWrInLen (n : Nat) : HostStep := .access (.write .reg 2 n)

/-- `WR IN[i], v` (30_encoding.md R97). -/
def lineWrIn (i v : Nat) : HostStep := .access (.write .inp i v)

/-- `RD STATUS` (30_encoding.md R97). -/
def lineRdStatus : HostStep := .access (.read .reg 1)

/-- `RD IN_LEN` (30_encoding.md R97). -/
def lineRdInLen : HostStep := .access (.read .reg 2)

/-- `RD OUT_LEN` (30_encoding.md R97). -/
def lineRdOutLen : HostStep := .access (.read .reg 3)

/-- `RD ERR_POS` (30_encoding.md R97). -/
def lineRdErrPos : HostStep := .access (.read .reg 4)

/-- `RD ERR_VAL` (30_encoding.md R97). -/
def lineRdErrVal : HostStep := .access (.read .reg 5)

/-- `RD IN[i]` (30_encoding.md R97). -/
def lineRdIn (i : Nat) : HostStep := .access (.read .inp i)

/-- `RD OUT[i]` (30_encoding.md R97). -/
def lineRdOut (i : Nat) : HostStep := .access (.read .out i)

/-- `LOAD` (30_encoding.md R98): the elements in order, then their number. -/
def loadLines (a : List Nat) : List HostStep :=
  (a.zipIdx.map fun x => lineWrIn x.2 x.1) ++ [lineWrInLen a.length]

/-- `CALL_ENC` (30_encoding.md R98), the hardware form of the source's `encode(input)`. -/
def callEncLines (a : List Nat) : List HostStep := loadLines a ++ [lineEnc, .wait]

/-- `CALL_DEC` (30_encoding.md R98), the hardware form of the source's `decode(input)`. -/
def callDecLines (a : List Nat) : List HostStep := loadLines a ++ [lineDec, .wait]

end Sys2Proof.Machine
end

