-- ==== Sys2Proof/Machine/Engine.lean ====
section
/-! DEFINITION. The ENGINE agent: where it takes its command word from, its one kind of step
`complete`, and whose turn it is (10_state.md R40; 00_scope.md R15; 70_reset_and_hazards.md R270). -/

namespace Sys2Proof.Machine

/-- The command word of the operation in progress (10_state.md R33): the block fetches nothing from a
memory (R21). -/
def fetchWord (s : State) : Byte := s.opLatch

/-- `complete`, for a state with `BUSY = 1` (10_state.md R40): a command has its meaning, any other word
is `IllegalCommand`. -/
def complete (s : State) : Host.Outcome State Fault Refusal :=
  match decode (fetchWord s) with
  | .ok i => exec i s
  | .error _ => .next (commit s (illegalResult s))

/-- The engine's turn: `complete` "enabled if and only if `REG.STATUS.BUSY = 1`" (10_state.md R40); an
idle engine does nothing. -/
def engineTurn (s : State) : Host.Outcome State Fault Refusal :=
  if s.busy then complete s else .next s

/-- Whose turn it is (log entry 8): the turns fixed beforehand, any finite interleaving at all; after
them the engine while it is busy, since every accepted command completes (70_reset_and_hazards.md
R270), and otherwise the host. -/
def nextAgent (s : State) : Agent :=
  match s.turns with
  | a :: _ => a
  | [] => if s.busy then .engine else .host

/-- The turn about to be taken is used up. -/
def State.popTurn (s : State) : State := { s with turns := s.turns.tail }

/-- One turn of one agent (20_memory.md R69: one total order of host accesses and `complete`). -/
def turn (s : State) : Host.Outcome State Fault Refusal :=
  match nextAgent s with
  | .engine => engineTurn s.popTurn
  | .host => .next (hostTurn s.popTurn)

/-- A state in which the engine is about to run the command word `w`: what acceptance of `w` leaves
(10_state.md R41), with the reset input released, as acceptance needs, and the next turn the engine's. -/
def State.latch (s : State) (w : Byte) : State :=
  { accept (releaseReset s) w with turns := .engine :: s.turns }

end Sys2Proof.Machine
end

