-- ==== Sys2Proof/Machine/Step.lean ====
section
/-! DEFINITION. One step of the machine, and where its next command word comes from. -/

namespace Sys2Proof.Machine

/-- One step: one turn of one of the two agents (00_scope.md R15). -/
def step (s : State) : Host.Outcome State Fault Refusal := turn s

/-- `s` with the command word `w` accepted and the engine to move next, so that the next step runs it. -/
def State.withFetchWord (s : State) (nbits w : Nat) : State := s.latch (tableByte nbits w)

end Sys2Proof.Machine
end

