-- ==== Sys2Proof/Machine/Copies.lean ====
section
/-! DEFINITION. Several copies of the block (60_exceptions.md R232; 00_scope.md R10). -/

namespace Sys2Proof.Machine

/-- The `N_INST` copies an integrator placed. Each has "its own registers, buffers, latch and engine";
they share only the constant tables, which are in the configuration. -/
structure Copies where
  blocks : List State
deriving DecidableEq, Repr

/-- Every copy idle after reset, each with unspecified buffer contents of its own. -/
def Copies.reset (c : Config) : Copies :=
  { blocks := (List.range c.nInst).map fun k => State.resetWith c k }

/-- One step of copy `k`; a copy that does not exist does nothing. -/
def Copies.step (cs : Copies) (k : Nat) : Host.Outcome Copies Fault Refusal :=
  match cs.blocks[k]? with
  | none => .next cs
  | some s =>
    match Sys2Proof.Machine.step s with
    | .next t => .next { blocks := cs.blocks.set k t }
    | .fault r => .fault r
    | .refused r => .refused r

end Sys2Proof.Machine
end

