-- ==== Sys2Proof/Safety.lean ====
section
/-! DEFINITION. The terms claims are made in: the invariant of the block, what a completed operation
leaves for the host, and results described bit by bit, independently of the grouping the units use. -/

namespace Sys2Proof.Machine

/-- The status values that occur (10_state.md R24; 43_encoder.md R190; 42_decoder.md R151;
60_exceptions.md R215): after reset, in progress, and one for each outcome. -/
def statusWords : List Byte := [0x00, 0x01, 0x02, 0x0A, 0x0E, 0x12, 0x26, 0x46, 0x66, 0x86]

/-- The invariant of the block. -/
structure State.Inv (s : State) : Prop where
  /-- Only the shapes of 10_state.md R24 occur; `ERR` and `SUB` values 5 to 7 do not
  (93_implementation_defined.md U7). -/
  statusShape : s.status ∈ statusWords
  /-- In `ALIGNED` mode `PADLEN` and `DANGLING` never occur (42_decoder.md R153). -/
  alignedShape : s.cfg.padStrip = .aligned → s.status ≠ 0x46 ∧ s.status ≠ 0x86
  /-- `IN_LEN` fits `LEN_W` bits (10_state.md R25). -/
  inLenFits : s.inLen < 2 ^ s.cfg.lenW
  /-- A result fits the output buffer (43_encoder.md R186, 42_decoder.md R149). -/
  outLenFits : s.outLen ≤ s.cfg.outCap
  /-- `ERR_POS` fits `LEN_W` bits (10_state.md R27). -/
  errPosFits : s.errPos < 2 ^ s.cfg.lenW
  /-- `ERR_VAL` fits `CU_W` bits (10_state.md R28). -/
  errValFits : s.errVal < 2 ^ s.cfg.cuW
  /-- `IN_BUF` is in canonical form. -/
  inBufForm : Memory.wf s.inBuf
  /-- `IN_BUF` has `IN_CAP` elements of `CU_W` bits (10_state.md R30). -/
  inBufRange : ∀ x ∈ s.inBuf, x.1 < s.cfg.inCap ∧ x.2 < 2 ^ s.cfg.cuW
  /-- `OUT_BUF` is in canonical form. -/
  outBufForm : Memory.wf s.outBuf
  /-- `OUT_BUF` has `OUT_CAP` elements (10_state.md R31). -/
  outBufRange : ∀ x ∈ s.outBuf, x.1 < s.cfg.outCap
  /-- After a success the failure record is clear (10_state.md R27, R28). -/
  okRecord : s.done = true → s.err = 0 → s.errPos = 0 ∧ s.errVal = 0
  /-- After a failure there is no result (10_state.md R26). -/
  failLength : s.done = true → s.err ≠ 0 → s.outLen = 0
  /-- A result has been written whole (10_state.md R46). -/
  resultWritten : s.done = true → ∀ j, j < s.outLen → (Memory.read s.outBuf j).isSome = true
  /-- Before any command the registers are those of reset (10_state.md R50). -/
  resetRecord : s.status = 0x00 → s.outLen = 0 ∧ s.errPos = 0 ∧ s.errVal = 0
  /-- While the reset input is asserted the state is that of 10_state.md R50 (70_reset_and_hazards.md
  R250); with `resetRecord` this fixes every register. -/
  resetHeld : s.resetIn = true → s.status = 0x00 ∧ s.inLen = 0 ∧ s.inBuf = [] ∧ s.outBuf = []

/-- Two states hold the same block: every field but the HOST agent's. -/
def State.sameBlock (s t : State) : Prop :=
  t.cfg = s.cfg ∧ t.status = s.status ∧ t.inLen = s.inLen ∧ t.outLen = s.outLen ∧ t.errPos = s.errPos ∧
    t.errVal = s.errVal ∧ t.inBuf = s.inBuf ∧ t.outBuf = s.outBuf ∧ t.opLatch = s.opLatch ∧
    t.resetIn = s.resetIn ∧ t.freeSeed = s.freeSeed

/-- Two states hold the same HOST agent. -/
def State.sameHost (s t : State) : Prop :=
  t.script = s.script ∧ t.turns = s.turns ∧ t.seen = s.seen

/-- Every element of the argument has been written since reset: the premise of 70_reset_and_hazards.md
R254. -/
def State.argWritten (s : State) : Prop :=
  ∀ i, i < s.inLen → (Memory.read s.inBuf i).isSome = true

/-- What the host finds after an operation with this outcome (10_state.md R40; 60_exceptions.md R212). -/
def State.holdsResult (t : State) : OpResult → Prop
  | .ok out =>
    t.status = 0x02 ∧ t.outLen = out.length ∧ t.errPos = 0 ∧ t.errVal = 0 ∧
      ∀ j, j < out.length → t.outElem j = out.getD j 0
  | .fail err sub pos val =>
    t.status = doneStatus err sub ∧ t.outLen = 0 ∧ t.errPos = pos ∧ t.errVal = val

/-- Payload bit `m` of a byte sequence, most significant bit of the first byte first (20_memory.md R63);
the fill bits after the last byte are 0 (43_encoder.md R183). -/
def byteBit (b : List Byte) (m : Nat) : Bool := (b.getD (m / 8) 0).getMsbD (m % 8)

/-- Payload bit `m` of a sequence of 6-bit values (20_memory.md R63). -/
def sextetBit (v : List Sextet) (m : Nat) : Bool := (v.getD (m / 6) 0).getMsbD (m % 6)

/-- The 6-bit value number `j` of a byte sequence's payload: bits `6j` to `6j + 5`. -/
def sextetAt (b : List Byte) (j : Nat) : Sextet :=
  BitVec.ofBool (byteBit b (6 * j)) ++ BitVec.ofBool (byteBit b (6 * j + 1)) ++
    BitVec.ofBool (byteBit b (6 * j + 2)) ++ BitVec.ofBool (byteBit b (6 * j + 3)) ++
    BitVec.ofBool (byteBit b (6 * j + 4)) ++ BitVec.ofBool (byteBit b (6 * j + 5))

/-- The byte number `j` of a value sequence's payload: bits `8j` to `8j + 7`. -/
def byteAt (v : List Sextet) (j : Nat) : Byte :=
  BitVec.ofBool (sextetBit v (8 * j)) ++ BitVec.ofBool (sextetBit v (8 * j + 1)) ++
    BitVec.ofBool (sextetBit v (8 * j + 2)) ++ BitVec.ofBool (sextetBit v (8 * j + 3)) ++
    BitVec.ofBool (sextetBit v (8 * j + 4)) ++ BitVec.ofBool (sextetBit v (8 * j + 5)) ++
    BitVec.ofBool (sextetBit v (8 * j + 6)) ++ BitVec.ofBool (sextetBit v (8 * j + 7))

/-- How many symbols carry the payload of `n` bytes: `ceil(8n / 6)` (43_encoder.md R182, R183). -/
def symbolCount (n : Nat) : Nat := (8 * n + 5) / 6

/-- The core of a filtered sequence: what is left when `p` padding symbols are removed
(42_decoder.md R143). -/
def coreOf (m : PadStrip) (s : List Nat) : List Nat := s.take (s.length - padsRemoved m s)

/-- The canonical form (00_scope.md glossary): symbols with full padding, no whitespace, zero fill
bits. -/
def Canonical (c : Config) (a : List Nat) : Prop :=
  ∃ (vs : List Sextet) (p : Nat),
    a = (vs.map fun v => (encLut c v).toNat) ++ List.replicate p pad.toNat ∧
    (vs.length + p) % 4 = 0 ∧ p ≤ 2 ∧
    (p = 1 → (vs.getLastD 0).extractLsb' 0 2 = 0) ∧ (p = 2 → (vs.getLastD 0).extractLsb' 0 4 = 0)

end Sys2Proof.Machine
end

