-- ==== Sys2Proof/Certificates/Slice0/Obligations.lean ====
section
/-! DEFINITION. The statements of this model, for the provers. -/

open Sys2Proof Sys2Proof.Machine

/-! ## The command word -/

/-- 30_encoding.md R91, R93: a word is `ENC` exactly when `w & 0xFF = 0x01`, `DEC` exactly when
`w & 0xFF = 0x02`, and every other word is rejected as an illegal command. -/
def Obligations.CommandWordsDecodeByTable : Prop :=
  (∀ w : Byte, decode w = .ok .enc ↔ w &&& 0xFF = 0x01) ∧
  (∀ w : Byte, decode w = .ok .dec ↔ w &&& 0xFF = 0x02) ∧
  (∀ w : Byte, w ≠ 0x01 → w ≠ 0x02 → decode w = .error (.illegalCommand w))

/-- 30_encoding.md R90, R91: decoder and encoder are inverse to each other. -/
def Obligations.DecodeAndEncodeAgree : Prop :=
  (∀ i : Instr, i.wf = true → decode (encode i) = .ok i) ∧
  (∀ (w : Byte) (i : Instr), decode w = .ok i → encode i = w)

/-- 30_encoding.md R91: the two command words, written out bit by bit, through the numbering of the
opcode table. -/
def Obligations.WrittenOutCommandWordsDecode : Prop :=
  decodeTableWord 8 0b00000001 = some .enc ∧ decodeTableWord 8 0b00000010 = some .dec ∧
  decodeTableWord 8 0b00000000 = none ∧ decodeTableWord 8 0b10000001 = none

/-! ## Steps and agents -/

/-- 10_state.md R40, 00_scope.md R15: when it is the engine's turn and `BUSY = 1`, a step is the latched
command's meaning, with nothing around it but the turn used up. -/
def Obligations.StepRunsLatchedCommand : Prop :=
  ∀ (s : State) (i : Instr), nextAgent s = .engine → s.busy = true → decode s.opLatch = .ok i →
    step s = exec i s.popTurn

/-- Log entry 12: `withFetchWord` is command acceptance (10_state.md R41) in a block whose reset input
is released, with the next turn the engine's, and the next step runs exactly that command. -/
def Obligations.FetchWordRunsCommand : Prop :=
  ∀ (s : State) (i : Instr),
    step (s.withFetchWord 8 (encode i).toNat) = exec i (accept (releaseReset s) (encode i)) ∧
    decodeTableWord 8 (encode i).toNat = some i

/-- 60_exceptions.md R215 (also 30_encoding.md R93): a word that is no command completes as
`IllegalCommand` whatever `IN_LEN` and `IN_BUF` hold; nothing but the record changes. -/
def Obligations.IllegalWordRecordsIllegalCommand : Prop :=
  ∀ s : State, nextAgent s = .engine → s.busy = true → s.opLatch ≠ 0x01 → s.opLatch ≠ 0x02 →
    step s = .next
      { s.popTurn with status := 0x0E, outLen := 0, errPos := 0, errVal := s.opLatch.toNat }

/-- 10_state.md R40: `complete` is "enabled if and only if `REG.STATUS.BUSY = 1`": the engine's turn in
an idle block changes nothing. -/
def Obligations.IdleEngineDoesNothing : Prop :=
  ∀ s : State, nextAgent s = .engine → s.busy = false → step s = .next s.popTurn

/-- 10_state.md R41, R23; 70_reset_and_hazards.md R250: a write of any value to `CMD` while the block is
idle and its reset input is released is accepted: it latches the word, makes `STATUS` `0x01`, and
changes nothing else. (With the input asserted: `HeldResetKeepsResetState`.) -/
def Obligations.CommandWriteIsAccepted : Prop :=
  ∀ (s : State) (c : Byte) (rest : List HostStep), nextAgent s = .host → s.busy = false →
    s.resetIn = false → s.script = .access (.write .reg 0 c.toNat) :: rest →
    step s = .next { s.popTurn with script := rest, opLatch := c, status := 0x01 }

/-- 10_state.md R42: while `BUSY = 1` every host write is ignored. -/
def Obligations.BusyWritesAreIgnored : Prop :=
  ∀ (s : State) (sp : Space) (i v : Nat) (rest : List HostStep), nextAgent s = .host →
    s.busy = true → s.script = .access (.write sp i v) :: rest →
    step s = .next { s.popTurn with script := rest }

/-- 10_state.md R43, 20_memory.md R66: a host read gives the host the element's value and never changes
the block. -/
def Obligations.HostReadsChangeNothing : Prop :=
  ∀ (s : State) (sp : Space) (i : Nat) (rest : List HostStep), nextAgent s = .host →
    s.script = .access (.read sp i) :: rest →
    step s = .next { s.popTurn with script := rest, seen := hostRead s sp i :: s.seen }

/-- 10_state.md R22, R24, R43; 20_memory.md R60, R65: what each host read returns, and `STATUS` reads
`0x01` while an operation is in progress. -/
def Obligations.HostReadsReturnTheElement : Prop :=
  ∀ s : State,
    hostRead s .reg 0 = 0 ∧ hostRead s .reg 1 = s.status.toNat ∧ hostRead s .reg 2 = s.inLen ∧
    hostRead s .reg 3 = s.outLen ∧ hostRead s .reg 4 = s.errPos ∧ hostRead s .reg 5 = s.errVal ∧
    (∀ i, i < s.cfg.inCap → hostRead s .inp i = s.inElem i) ∧
    (∀ i, i < s.cfg.outCap → hostRead s .out i = (s.outElem i).toNat) ∧
    (s.Inv → s.busy = true → hostRead s .reg 1 = 0x01)

/-- 10_state.md R29: register indices 6 and above are unmapped. -/
def Obligations.UnmappedRegistersAreHarmless : Prop :=
  ∀ (s : State) (i v : Nat), 6 ≤ i → hostRead s .reg i = 0 ∧ hostWrite s .reg i v = s

/-- 10_state.md R44: writes to read-only registers and to `OUT_BUF` are ignored at all times, and `CMD`
reads `0x00` at all times. -/
def Obligations.ReadOnlyWritesAreIgnored : Prop :=
  ∀ (s : State) (v : Nat),
    hostWrite s .reg 1 v = s ∧ hostWrite s .reg 3 v = s ∧ hostWrite s .reg 4 v = s ∧
    hostWrite s .reg 5 v = s ∧ (∀ i, hostWrite s .out i v = s) ∧ hostRead s .reg 0 = 0

/-- 20_memory.md R65: out-of-range accesses have "a defined, harmless effect". -/
def Obligations.OutOfRangeAccessesAreHarmless : Prop :=
  ∀ (s : State) (i v : Nat),
    (s.cfg.inCap ≤ i → hostRead s .inp i = 0 ∧ hostWrite s .inp i v = s) ∧
    (s.cfg.outCap ≤ i → hostRead s .out i = 0)

/-- 10_state.md R25, R30; 20_memory.md R66: a write to an input element or to `IN_LEN` of an idle block
that is not held in reset stores its value, and every other element and register reads as before. The value stored is the low
`CU_W` or `LEN_W` bits of what the host gives: log entry 3, the model's choice. -/
def Obligations.HostWriteStoresOneElement : Prop :=
  ∀ (s : State) (i v : Nat), s.busy = false → s.resetIn = false →
    (i < s.cfg.inCap →
      hostRead (hostWrite s .inp i v) .inp i = v % 2 ^ s.cfg.cuW ∧
      (∀ j, j ≠ i → hostRead (hostWrite s .inp i v) .inp j = hostRead s .inp j) ∧
      (∀ j, hostRead (hostWrite s .inp i v) .reg j = hostRead s .reg j) ∧
      (∀ j, hostRead (hostWrite s .inp i v) .out j = hostRead s .out j)) ∧
    hostRead (hostWrite s .reg 2 v) .reg 2 = v % 2 ^ s.cfg.lenW ∧
    (∀ j, j ≠ 2 → hostRead (hostWrite s .reg 2 v) .reg j = hostRead s .reg j) ∧
    (∀ j, hostRead (hostWrite s .reg 2 v) .inp j = hostRead s .inp j) ∧
    (∀ j, hostRead (hostWrite s .reg 2 v) .out j = hostRead s .out j)

/-- 60_exceptions.md R225: `done_o` rises at `complete`, falls when the next command is accepted, is 0
during and after reset, and no host access but an accepted command moves it. -/
def Obligations.DoneOutputFollowsCompletion : Prop :=
  (∀ s t : State, engineTurn s = .next t → s.busy = true → t.doneO = true) ∧
  (∀ (s : State) (c : Byte), (accept s c).doneO = false) ∧
  (∀ s : State, (assertReset s).doneO = false ∧ (releaseReset (assertReset s)).doneO = false) ∧
  (∀ (s : State) (sp : Space) (i v : Nat), ¬(sp = .reg ∧ i = 0) → (hostWrite s sp i v).doneO = s.doneO)

/-! ## Reset -/

/-- 10_state.md R50, 70_reset_and_hazards.md R250: the registers after reset, in every configuration. -/
def Obligations.ResetClearsRegisters : Prop :=
  State.reset = State.resetWith Config.ref 0 ∧
  ∀ (c : Config) (seed : Nat),
    hostRead (State.resetWith c seed) .reg 0 = 0 ∧ hostRead (State.resetWith c seed) .reg 1 = 0 ∧
    hostRead (State.resetWith c seed) .reg 2 = 0 ∧ hostRead (State.resetWith c seed) .reg 3 = 0 ∧
    hostRead (State.resetWith c seed) .reg 4 = 0 ∧ hostRead (State.resetWith c seed) .reg 5 = 0 ∧
    (State.resetWith c seed).busy = false ∧ (State.resetWith c seed).doneO = false ∧
    (State.resetWith c seed).cfg = c

/-- 70_reset_and_hazards.md R250, R251: asserting the reset input abandons whatever operation is in
progress: `STATUS` becomes `0x00`, not `DONE`, the registers are cleared, the buffers hold nothing
written, and the configuration stays. That asserting an asserted input is no event, and that the HOST
agent's script and readings survive, is log entry 11, the model's choice. -/
def Obligations.ResetAbandonsOperation : Prop :=
  ∀ (s : State) (rest : List HostStep), nextAgent s = .host → s.script = .reset true :: rest →
    (s.resetIn = false →
      ∃ t, step s = .next t ∧ t.resetIn = true ∧ t.status = 0x00 ∧ t.doneO = false ∧
        t.busy = false ∧ t.inLen = 0 ∧ t.outLen = 0 ∧ t.errPos = 0 ∧ t.errVal = 0 ∧
        (∀ i, Memory.read t.inBuf i = none) ∧ (∀ i, Memory.read t.outBuf i = none) ∧
        t.cfg = s.cfg ∧ t.script = rest ∧ t.seen = s.seen) ∧
    (s.resetIn = true → step s = .next { s.popTurn with script := rest })

/-- 70_reset_and_hazards.md R250: while the reset input is asserted the state is that of 10_state.md R50:
every register reads 0, no buffer element has been written, the block is idle with `done_o = 0`.
That every host write is ignored meanwhile is log entry 22, the model's inference: R250 does not speak
of accesses. That no turn of either agent but the release changes the block, its unspecified contents
and latch included, is log entries 22 and 11, the model's own. -/
def Obligations.HeldResetKeepsResetState : Prop :=
  (∀ s : State, s.Inv → s.resetIn = true →
    (∀ i, hostRead s .reg i = 0) ∧ s.busy = false ∧ s.doneO = false ∧
    (∀ i, Memory.read s.inBuf i = none) ∧ (∀ i, Memory.read s.outBuf i = none)) ∧
  (∀ (s : State) (sp : Space) (i v : Nat), s.resetIn = true → hostWrite s sp i v = s) ∧
  (∀ s t : State, s.Inv → s.resetIn = true → s.script.head? ≠ some (.reset false) →
    step s = .next t → State.sameBlock s t)

/-- 70_reset_and_hazards.md R250: "at the moment it is released" the state is that of 10_state.md R50, and
the next host access, if it writes `CMD`, is accepted. That releasing the reset input changes its level
and nothing else, so that the unspecified buffer contents and the latch stay what they were while it was
asserted, is log entry 11, the model's choice: R250 does not say it. -/
def Obligations.ReleasedResetAcceptsCommand : Prop :=
  ∀ (s : State) (rest : List HostStep), nextAgent s = .host → s.script = .reset false :: rest →
    step s = .next { s.popTurn with script := rest, resetIn := false } ∧
    (s.Inv → s.resetIn = true → ∃ t, step s = .next t ∧ t.busy = false ∧ t.doneO = false ∧
      (∀ i, hostRead t .reg i = 0) ∧
      ∀ c : Byte, hostWrite t .reg 0 c.toNat = { t with opLatch := c, status := 0x01 })

/-! ## Whole-machine rules -/

/-- Every step of every state, in every well-formed configuration, keeps the invariant of the block. -/
def Obligations.StepKeepsBlockInvariant : Prop :=
  ∀ s t : State, s.Inv → step s = .next t → t.Inv

/-- 10_state.md R50: the invariant holds after reset. -/
def Obligations.ResetMeetsBlockInvariant : Prop :=
  ∀ (c : Config) (seed : Nat), (State.resetWith c seed).Inv

/-- 20_memory.md R65, 60_exceptions.md R218: no access and no word stops the block. -/
def Obligations.EveryStepAnswersNext : Prop :=
  ∀ s : State, ∃ t, step s = .next t

/-- 10_state.md R32, 40_alphabet_lut.md R117: no step changes the constant tables or any other
parameter. -/
def Obligations.NoStepChangesConfiguration : Prop :=
  ∀ s t : State, step s = .next t → t.cfg = s.cfg

/-- 70_reset_and_hazards.md R270: every accepted command completes. The bound counts the turns the
schedule of this state fixes beforehand (log entry 8); the spec bounds no time. -/
def Obligations.AcceptedCommandCompletes : Prop :=
  ∀ s : State, s.busy = true →
    ∃ (k : Nat) (t : State), k ≤ s.turns.length + 1 ∧ Host.Core.run Sys2Proof.core k s = .next t ∧
      t.busy = false

/-- 00_scope.md R15, 10_state.md R42, 20_memory.md R67: whatever host steps (resets apart) come between
acceptance and completion, the first idle state after a busy one is the block the engine's step makes
of the state at acceptance. -/
def Obligations.OutcomeIndependentOfInterleaving : Prop :=
  ∀ (s t e : State) (k : Nat), s.busy = true → (∀ b, HostStep.reset b ∉ s.script) →
    engineTurn s = .next e → Host.Core.run Sys2Proof.core k s = .next t → t.busy = false →
    (∀ j u, j < k → Host.Core.run Sys2Proof.core j s = .next u → u.busy = true) →
    State.sameBlock e t

/-- 60_exceptions.md R232: a step of one copy is a step of that block alone, and changes no other
copy. -/
def Obligations.CopiesDoNotAffectEachOther : Prop :=
  ∀ (cs ds : Copies) (k : Nat) (s : State), cs.blocks[k]? = some s → cs.step k = .next ds →
    step s = .next (ds.blocks.getD k s) ∧ ds.blocks.length = cs.blocks.length ∧
    ∀ j, j ≠ k → ds.blocks[j]? = cs.blocks[j]?

/-! ## Both commands -/

/-- 10_state.md R45, R46: a command's frame. It completes; the argument, the latch, the configuration and
the HOST agent are unchanged; output elements at and beyond `OUT_LEN` read as before. On success exactly
the elements below `OUT_LEN` are written, on failure none is. -/
def Obligations.CommandFrame : Prop :=
  ∀ (i : Instr) (s : State), ∃ t, exec i s = .next t ∧
    t.cfg = s.cfg ∧ t.inLen = s.inLen ∧ t.inBuf = s.inBuf ∧ t.opLatch = s.opLatch ∧
    t.resetIn = s.resetIn ∧ t.freeSeed = s.freeSeed ∧ State.sameHost s t ∧
    (∀ j, hostRead t .inp j = hostRead s .inp j) ∧
    (∀ j, t.outLen ≤ j → Memory.read t.outBuf j = Memory.read s.outBuf j) ∧
    (∀ j, t.outLen ≤ j → hostRead t .out j = hostRead s .out j) ∧
    (t.err = 0 → ∀ j, j < t.outLen → (Memory.read t.outBuf j).isSome = true) ∧
    (t.err ≠ 0 → t.outBuf = s.outBuf)

/-- 60_exceptions.md R218, R219: a failure writes the record and nothing else: `DONE = 1`, `BUSY = 0`,
`OUT_LEN = 0`. After a success `ERR_POS` and `ERR_VAL` hold 0 (10_state.md R26 to R28). -/
def Obligations.FailureWritesOnlyTheRecord : Prop :=
  ∀ (i : Instr) (s : State), ∃ t, exec i s = .next t ∧ t.done = true ∧ t.busy = false ∧
    (t.err = 0 → t.sub = 0 ∧ t.errPos = 0 ∧ t.errVal = 0) ∧
    (t.err ≠ 0 →
      t = { s with status := t.status, outLen := 0, errPos := t.errPos, errVal := t.errVal })

/-- 60_exceptions.md R211, R213, R214: which failures each command can record. -/
def Obligations.EachCommandHasItsFailures : Prop :=
  ∀ (i : Instr) (s t : State), exec i s = .next t →
    (i = .enc → t.err = 0 ∨ t.err = 2 ∨ t.err = 4) ∧
    (i = .dec → t.err = 0 ∨ t.err = 1 ∨ t.err = 4) ∧
    (t.sub ≠ 0 ↔ t.err = 1) ∧ t.sub ≤ 4

/-- 60_exceptions.md R216: `LengthError` is the outcome of either command when `IN_LEN > IN_CAP`, decided
before any buffer element is looked at, and reachable in every configuration. -/
def Obligations.LongArgumentRecordsLengthError : Prop :=
  (∀ (i : Instr) (s : State), s.inLen > s.cfg.inCap →
    exec i s = .next { s with status := 0x12, outLen := 0, errPos := s.inLen, errVal := 0 }) ∧
  (∀ c : Config, c.outCap ≤ 2 ^ c.lenW - 1 ∧ c.inCap < c.outCap)

/-- 00_scope.md R17: the outcome is a function of the command, `IN_LEN`, `IN_BUF[0..IN_LEN)` and the
parameters only. -/
def Obligations.OutcomeIndependentOfHistory : Prop :=
  ∀ (i : Instr) (s u : State), s.cfg = u.cfg → s.inLen = u.inLen →
    (∀ k, k < s.inLen → s.inElem k = u.inElem k) →
    ∃ s' u', exec i s = .next s' ∧ exec i u = .next u' ∧ s'.status = u'.status ∧
      s'.outLen = u'.outLen ∧ s'.errPos = u'.errPos ∧ s'.errVal = u'.errVal ∧
      ∀ j, j < s'.outLen → s'.outElem j = u'.outElem j

/-- 70_reset_and_hazards.md R254: when every element of the argument has been written since reset, no
unspecified value enters the outcome: it is the same under every seed of the free values. -/
def Obligations.WrittenArgumentFixesOutcome : Prop :=
  ∀ (i : Instr) (s : State) (seed : Nat), s.argWritten →
    ∃ t u, exec i s = .next t ∧ exec i { s with freeSeed := seed } = .next u ∧
      u = { t with freeSeed := seed }

/-- 20_memory.md R68: accepting the same command again on an unchanged argument produces the same
outcome. -/
def Obligations.RepeatedCommandRepeatsOutcome : Prop :=
  ∀ (i : Instr) (s : State), ∃ t u, exec i s = .next t ∧ exec i (accept t (encode i)) = .next u ∧
    u.status = t.status ∧ u.outLen = t.outLen ∧ u.errPos = t.errPos ∧ u.errVal = t.errVal ∧
    ∀ j, u.outElem j = t.outElem j

/-! ## The tables and the whitespace filter -/

/-- 40_alphabet_lut.md R115: the look-up tables are inverse to each other, in every configuration, and
exactly 64 of the `2^CU_W` element values have a value. -/
def Obligations.LookupTablesAreInverse : Prop :=
  ∀ c : Config,
    (∀ v : Sextet, decLut c (encLut c v).toNat = some v) ∧
    (∀ (u : Nat) (v : Sextet), decLut c u = some v → (encLut c v).toNat = u) ∧
    ∃ l : List Nat, l.Nodup ∧ l.length = 64 ∧
      ∀ u : Nat, (u < 2 ^ c.cuW ∧ (decLut c u).isSome = true) ↔ u ∈ l

/-- 40_alphabet_lut.md R116, 30_encoding.md R94: symbols, padding and whitespace share no member, so the
class of an element is unique; the class is decided on all bits. -/
def Obligations.ElementClassesAreDisjoint : Prop :=
  ∀ (c : Config) (u : Nat),
    (classify c u = .ws ↔ u ∈ [0x09, 0x0A, 0x0C, 0x0D, 0x20]) ∧
    (classify c u = .pad ↔ u = 0x3D) ∧
    (∀ v : Sextet, classify c u = .sym v ↔ u = (encLut c v).toNat) ∧
    (0x80 ≤ u → classify c u = .invalid)

/-- 41_whitespace_filter.md R132: the index map. -/
def Obligations.IndexMapFindsEachElement : Prop :=
  ∀ a : List Nat,
    (indexMap a).length = (normalizeWs a).length ∧ (indexMap a).Pairwise (· < ·) ∧
    (∀ j, j < (normalizeWs a).length → a[(indexMap a).getD j 0]? = (normalizeWs a)[j]?) ∧
    (∀ i, i ∈ indexMap a ↔ ∃ u, a[i]? = some u ∧ isWs u = false)

/-- 41_whitespace_filter.md R134: the filter's properties. -/
def Obligations.FilterLaws : Prop :=
  (∀ a : List Nat, (normalizeWs a).length ≤ a.length ∧ normalizeWs (normalizeWs a) = normalizeWs a ∧
    (normalizeWs a = a ↔ ∀ u ∈ a, isWs u = false) ∧ (normalizeWs a = [] ↔ ∀ u ∈ a, isWs u = true)) ∧
  (∀ a b : List Nat, normalizeWs (a ++ b) = normalizeWs a ++ normalizeWs b) ∧
  (∀ (c : Config) (a : List Nat), (∀ u ∈ a, isWs u = true) → b64Decode c a = .ok []) ∧
  (∀ (c : Config) (a : List Nat) (out : List Byte), b64Encode c a = .ok out →
    normalizeWs (out.map BitVec.toNat) = out.map BitVec.toNat)

/-- 41_whitespace_filter.md R135: whitespace never changes whether a decode succeeds or what bytes it
yields, only the reported position of an invalid character. -/
def Obligations.WhitespaceNeverChangesDecode : Prop :=
  ∀ (c : Config) (a : List Nat),
    (∃ out, b64Decode c a = .ok out ∧ b64Decode c (normalizeWs a) = .ok out) ∨
    (∃ sub pos pos' val, b64Decode c a = .fail .invalidCharacter sub pos val ∧
      b64Decode c (normalizeWs a) = .fail .invalidCharacter sub pos' val ∧ (sub ≠ .badchar → pos' = pos))

/-! ## The encoder -/

/-- 43_encoder.md R190, R182 to R186: `ENC` of bytes that fit completes with success; output element `j`
is the symbol of payload bits `6j` to `6j + 5` (most significant first, zero fill), and the rest of
the last group is padding. The frame is `CommandFrame`. -/
def Obligations.EncCompletesWithSymbols : Prop :=
  ∀ s : State, s.inLen ≤ s.cfg.inCap → (∀ i, i < s.inLen → s.inElem i ≤ 0xFF) →
    ∃ t, exec .enc s = .next t ∧ t.status = 0x02 ∧ t.outLen = 4 * ((s.inLen + 2) / 3) ∧
      t.errPos = 0 ∧ t.errVal = 0 ∧
      ∀ j, j < t.outLen → t.outElem j =
        if j < symbolCount s.inLen then encLut s.cfg (sextetAt (s.argument.map byteOf) j) else pad

/-- 43_encoder.md R181, R187: the first element above 255 makes `ENC` fail with `ByteRangeError`, with no
other effect than the record. -/
def Obligations.EncWideElementRecordsByteRange : Prop :=
  ∀ (s : State) (i : Nat), s.inLen ≤ s.cfg.inCap → i < s.inLen → s.inElem i > 0xFF →
    (∀ k, k < i → s.inElem k ≤ 0xFF) →
    exec .enc s = .next { s with status := 0x0A, outLen := 0, errPos := i, errVal := s.inElem i }

/-- 43_encoder.md R182, 42_decoder.md R147: `regroup3` and `unpack4` are exact inverses. -/
def Obligations.RegroupAndUnpackAreInverse : Prop :=
  (∀ b0 b1 b2 : Byte, ∃ g0 g1 g2 g3 : Sextet, regroup3 b0 b1 b2 = [g0, g1, g2, g3] ∧
    unpack4 g0 g1 g2 g3 = [b0, b1, b2]) ∧
  (∀ v0 v1 v2 v3 : Sextet, ∃ b0 b1 b2 : Byte, unpack4 v0 v1 v2 v3 = [b0, b1, b2] ∧
    regroup3 b0 b1 b2 = [v0, v1, v2, v3])

/-- 43_encoder.md R191, R184, R186; 30_encoding.md R96: what a successful `encode` yields is symbols
followed by `(3 - n mod 3) mod 3` padding symbols, of length `4 * ceil(n / 3)`. -/
def Obligations.EncoderOutputIsEncodedString : Prop :=
  ∀ (c : Config) (a : List Nat) (out : List Byte), b64Encode c a = .ok out →
    out.length = 4 * ((a.length + 2) / 3) ∧
    ∃ syms : List Byte, out = syms ++ List.replicate ((3 - a.length % 3) % 3) pad ∧
      (∀ b ∈ syms, b ∈ c.alphabet) ∧ (∀ b ∈ out, isWs b.toNat = false)

/-- 43_encoder.md R188: "Round trip", in both `PAD_STRIP` modes and for every well-formed alphabet. -/
def Obligations.DecodeOfEncodeIsIdentity : Prop :=
  ∀ (c : Config) (b : List Byte), ∃ out, b64Encode c (b.map BitVec.toNat) = .ok out ∧
    b64Decode c (out.map BitVec.toNat) = .ok b

/-- 43_encoder.md R189, 42_decoder.md R155: re-encoding a decoded string yields the canonical form of the
decoded bytes, which decodes to the same bytes and equals the string exactly when it was canonical. -/
def Obligations.ReencodingIsCanonicalForm : Prop :=
  ∀ (c : Config) (a : List Nat) (b : List Byte), b64Decode c a = .ok b →
    ∃ out, b64Encode c (b.map BitVec.toNat) = .ok out ∧ Canonical c (out.map BitVec.toNat) ∧
      b64Decode c (out.map BitVec.toNat) = .ok b ∧ (out.map BitVec.toNat = a ↔ Canonical c a)

/-! ## The decoder -/

/-- 42_decoder.md R151, R147 to R149: `DEC` of a well-formed argument that fits completes with success;
output byte `j` is payload bits `8j` to `8j + 7` of the core's 6-bit values. The frame is
`CommandFrame`. -/
def Obligations.DecCompletesWithBytes : Prop :=
  ∀ (s : State) (vs : List Sextet), s.inLen ≤ s.cfg.inCap →
    (normalizeWs s.argument).length % 4 ≠ 1 → vs.length % 4 ≠ 1 →
    coreOf s.cfg.padStrip (normalizeWs s.argument) = vs.map (fun v => (encLut s.cfg v).toNat) →
    ∃ t, exec .dec s = .next t ∧ t.status = 0x02 ∧ t.outLen = 3 * vs.length / 4 ∧
      t.errPos = 0 ∧ t.errVal = 0 ∧ ∀ j, j < t.outLen → t.outElem j = byteAt vs j

/-- 42_decoder.md R152: the set of accepted inputs. -/
def Obligations.DecodeSucceedsExactly : Prop :=
  ∀ (c : Config) (a : List Nat),
    (∃ out, b64Decode c a = .ok out) ↔
      (normalizeWs a).length % 4 ≠ 1 ∧ (coreOf c.padStrip (normalizeWs a)).length % 4 ≠ 1 ∧
      ∀ u ∈ coreOf c.padStrip (normalizeWs a), (decLut c u).isSome = true

/-- 42_decoder.md R142, R144, R145, R146 and the order of 60_exceptions.md R217: which failure `DEC`
records, at which position, with which value; nothing else changes. -/
def Obligations.DecFailuresInOrder : Prop :=
  ∀ s : State, s.inLen ≤ s.cfg.inCap →
    ((normalizeWs s.argument).length % 4 = 1 →
      exec .dec s = .next { s with
        status := 0x26, outLen := 0, errPos := (normalizeWs s.argument).length, errVal := 0 }) ∧
    ((normalizeWs s.argument).length % 4 ≠ 1 →
      padsRemoved s.cfg.padStrip (normalizeWs s.argument) = 1 →
      (coreOf s.cfg.padStrip (normalizeWs s.argument)).length % 4 = 1 →
      s.cfg.padStrip = .doc ∧
      exec .dec s = .next { s with
        status := 0x46, outLen := 0, errVal := 0,
        errPos := (coreOf s.cfg.padStrip (normalizeWs s.argument)).length }) ∧
    (∀ (j : Nat) (u : Nat), (normalizeWs s.argument).length % 4 ≠ 1 →
      ¬(padsRemoved s.cfg.padStrip (normalizeWs s.argument) = 1 ∧
        (coreOf s.cfg.padStrip (normalizeWs s.argument)).length % 4 = 1) →
      (coreOf s.cfg.padStrip (normalizeWs s.argument))[j]? = some u → decLut s.cfg u = none →
      (∀ k w, k < j → (coreOf s.cfg.padStrip (normalizeWs s.argument))[k]? = some w →
        (decLut s.cfg w).isSome = true) →
      exec .dec s = .next { s with
        status := 0x66, outLen := 0, errPos := (indexMap s.argument).getD j 0, errVal := u }) ∧
    ((normalizeWs s.argument).length % 4 ≠ 1 →
      padsRemoved s.cfg.padStrip (normalizeWs s.argument) ≠ 1 →
      (∀ u ∈ coreOf s.cfg.padStrip (normalizeWs s.argument), (decLut s.cfg u).isSome = true) →
      (coreOf s.cfg.padStrip (normalizeWs s.argument)).length % 4 = 1 →
      s.cfg.padStrip = .doc ∧ padsRemoved s.cfg.padStrip (normalizeWs s.argument) = 2 ∧
      (normalizeWs s.argument).length % 4 = 3 ∧
      exec .dec s = .next { s with
        status := 0x86, outLen := 0, errVal := 0,
        errPos := (coreOf s.cfg.padStrip (normalizeWs s.argument)).length })

/-- 42_decoder.md R143: what padding removal removes: at most two trailing padding symbols, and in
`ALIGNED` mode none unless the filtered length is a multiple of 4. -/
def Obligations.PaddingRemovalTakesTrailingPads : Prop :=
  ∀ (m : PadStrip) (s : List Nat),
    ∃ n, (∃ before : List Nat, s = before ++ List.replicate n pad.toNat ∧
        before.getLast? ≠ some pad.toNat) ∧
      padsRemoved m s = (if m = .doc ∨ s.length % 4 = 0 then min n 2 else 0) ∧
      s = coreOf m s ++ List.replicate (padsRemoved m s) pad.toNat

/-- 42_decoder.md R153: which failures occur in which mode, and where the modes differ. -/
def Obligations.PadStripModesCompared : Prop :=
  (∀ (c : Config) (a : List Nat) (pos : Nat) (val : Nat),
    b64Decode (c.withPadStrip .aligned) a ≠ .fail .invalidCharacter .padlen pos val ∧
    b64Decode (c.withPadStrip .aligned) a ≠ .fail .invalidCharacter .dangling pos val) ∧
  (∀ (c : Config) (sub : Sub), sub ≠ .none → ∃ a pos val,
    b64Decode (c.withPadStrip .doc) a = .fail .invalidCharacter sub pos val) ∧
  (∀ (c : Config) (a : List Nat),
    trailingPads (normalizeWs a) = 0 ∨ (normalizeWs a).length % 4 = 0 ∨ (normalizeWs a).length % 4 = 1 →
    b64Decode (c.withPadStrip .aligned) a = b64Decode (c.withPadStrip .doc) a) ∧
  (∀ (c : Config) (a : List Nat), 1 ≤ trailingPads (normalizeWs a) →
    (normalizeWs a).length % 4 = 2 ∨ (normalizeWs a).length % 4 = 3 →
    ∃ (j : Nat) (u : Nat), (normalizeWs a)[j]? = some u ∧ decLut c u = none ∧
      (∀ k w, k < j → (normalizeWs a)[k]? = some w → (decLut c w).isSome = true) ∧
      b64Decode (c.withPadStrip .aligned) a =
        .fail .invalidCharacter .badchar ((indexMap a).getD j 0) u)

/-- 42_decoder.md R149: the length of a decoded result, and that it always fits. -/
def Obligations.DecodedLengthFits : Prop :=
  ∀ (c : Config) (a : List Nat) (out : List Byte), b64Decode c a = .ok out →
    out.length = 3 * (coreOf c.padStrip (normalizeWs a)).length / 4 ∧
    out.length = 3 * ((coreOf c.padStrip (normalizeWs a)).length / 4) +
      (match (coreOf c.padStrip (normalizeWs a)).length % 4 with
        | 2 => 1
        | 3 => 2
        | _ => 0) ∧
    out.length ≤ 3 * a.length / 4 ∧ (a.length ≤ c.inCap → out.length < c.outCap)

/-! ## Host programs -/

/-- 30_encoding.md R98, 70_reset_and_hazards.md R253: `CALL_ENC` of an argument that fits, from any idle
state that is not held in reset and under any turns fixed beforehand (so with any number of polls by
`WAIT` and of idle turns in between), leaves `encode` of that argument. The bound on the steps counts the
model's turns (log entry 8). -/
def Obligations.CallEncComputesEncode : Prop :=
  ∀ (s : State) (a : List Nat) (rest : List HostStep), s.busy = false → s.resetIn = false →
    s.script = callEncLines a ++ rest → a.length ≤ s.cfg.inCap → (∀ u ∈ a, u < 2 ^ s.cfg.cuW) →
    ∃ (k : Nat) (t : State), Host.Core.run Sys2Proof.core k s = .next t ∧
      k + t.turns.length ≤ s.turns.length + (a.length + 4) ∧
      (s.turns = [] → k = a.length + 4 ∧ t.turns = []) ∧ t.busy = false ∧ t.resetIn = false ∧
      t.script = rest ∧ t.inLen = a.length ∧ t.argument = a ∧ t.holdsResult (b64Encode s.cfg a)

/-- 30_encoding.md R98, 70_reset_and_hazards.md R253: `CALL_DEC` of an argument that fits, from any idle
state that is not held in reset and under any turns fixed beforehand (so with any number of polls by
`WAIT` and of idle turns in between), leaves `decode` of that argument. The bound on the steps counts the
model's turns (log entry 8). -/
def Obligations.CallDecComputesDecode : Prop :=
  ∀ (s : State) (a : List Nat) (rest : List HostStep), s.busy = false → s.resetIn = false →
    s.script = callDecLines a ++ rest → a.length ≤ s.cfg.inCap → (∀ u ∈ a, u < 2 ^ s.cfg.cuW) →
    ∃ (k : Nat) (t : State), Host.Core.run Sys2Proof.core k s = .next t ∧
      k + t.turns.length ≤ s.turns.length + (a.length + 4) ∧
      (s.turns = [] → k = a.length + 4 ∧ t.turns = []) ∧ t.busy = false ∧ t.resetIn = false ∧
      t.script = rest ∧ t.inLen = a.length ∧ t.argument = a ∧ t.holdsResult (b64Decode s.cfg a)

/-- 30_encoding.md R98, 70_reset_and_hazards.md R264: `MOVE` of a result that fits copies it,
zero-extended, into the argument buffer, from any idle state that is not held in reset and under any
turns fixed beforehand. The bound on the steps counts the model's turns (log entries 8 and 14). -/
def Obligations.MoveCopiesResultToArgument : Prop :=
  ∀ (s : State) (rest : List HostStep), s.busy = false → s.resetIn = false →
    s.script = .move :: rest → s.outLen ≤ s.cfg.inCap →
    ∃ (k : Nat) (t : State), Host.Core.run Sys2Proof.core k s = .next t ∧
      k + t.turns.length ≤ s.turns.length + (2 * s.outLen + 2) ∧
      (s.turns = [] → k = 2 * s.outLen + 2 ∧ t.turns = []) ∧ t.busy = false ∧ t.resetIn = false ∧
      t.script = rest ∧ t.inLen = s.outLen ∧ t.outLen = s.outLen ∧
      t.outBuf = s.outBuf ∧ t.cfg = s.cfg ∧ t.status = s.status ∧
      t.argument = (List.range s.outLen).map fun j => (s.outElem j).toNat

/-- 43_encoder.md R188 on the machine, 95_test_vectors.md program P1: encode, move, decode gives the
bytes back, for every byte sequence for which both operations fit, from any idle state that is not
held in reset and under any turns fixed beforehand. -/
def Obligations.RoundTripProgramReturnsBytes : Prop :=
  ∀ (s : State) (b : List Byte) (rest : List HostStep), s.busy = false → s.resetIn = false →
    s.script = callEncLines (b.map BitVec.toNat) ++ ([.move, lineDec, .wait] ++ rest) →
    b.length ≤ s.cfg.inCap → 4 * ((b.length + 2) / 3) ≤ s.cfg.inCap →
    ∃ (k : Nat) (t : State), Host.Core.run Sys2Proof.core k s = .next t ∧ t.script = rest ∧
      t.holdsResult (.ok b)
end

