-- ==== Sys2Proof/Laws/State.lean ====
section
/-! SUPPORT. One lemma per field per update of the state: no later proof unfolds a record update. -/

namespace Sys2Proof.Machine

/-! ### `commitOk` -/

@[simp] theorem commitOk_cfg (s : State) (out : List Byte) : (commitOk s out).cfg = s.cfg := rfl
@[simp] theorem commitOk_status (s : State) (out : List Byte) : (commitOk s out).status = doneStatus .ok .none := rfl
@[simp] theorem commitOk_inLen (s : State) (out : List Byte) : (commitOk s out).inLen = s.inLen := rfl
@[simp] theorem commitOk_outLen (s : State) (out : List Byte) : (commitOk s out).outLen = out.length := rfl
@[simp] theorem commitOk_errPos (s : State) (out : List Byte) : (commitOk s out).errPos = 0 := rfl
@[simp] theorem commitOk_errVal (s : State) (out : List Byte) : (commitOk s out).errVal = 0 := rfl
@[simp] theorem commitOk_inBuf (s : State) (out : List Byte) : (commitOk s out).inBuf = s.inBuf := rfl
@[simp] theorem commitOk_outBuf (s : State) (out : List Byte) : (commitOk s out).outBuf = Memory.writeAll s.outBuf 0 out := rfl
@[simp] theorem commitOk_opLatch (s : State) (out : List Byte) : (commitOk s out).opLatch = s.opLatch := rfl
@[simp] theorem commitOk_resetIn (s : State) (out : List Byte) : (commitOk s out).resetIn = s.resetIn := rfl
@[simp] theorem commitOk_freeSeed (s : State) (out : List Byte) : (commitOk s out).freeSeed = s.freeSeed := rfl
@[simp] theorem commitOk_script (s : State) (out : List Byte) : (commitOk s out).script = s.script := rfl
@[simp] theorem commitOk_turns (s : State) (out : List Byte) : (commitOk s out).turns = s.turns := rfl
@[simp] theorem commitOk_seen (s : State) (out : List Byte) : (commitOk s out).seen = s.seen := rfl

/-! ### `commitFail` -/

@[simp] theorem commitFail_cfg (s : State) (e : Err) (u : Sub) (p : Nat) (v : Nat) : (commitFail s e u p v).cfg = s.cfg := rfl
@[simp] theorem commitFail_status (s : State) (e : Err) (u : Sub) (p : Nat) (v : Nat) : (commitFail s e u p v).status = doneStatus e u := rfl
@[simp] theorem commitFail_inLen (s : State) (e : Err) (u : Sub) (p : Nat) (v : Nat) : (commitFail s e u p v).inLen = s.inLen := rfl
@[simp] theorem commitFail_outLen (s : State) (e : Err) (u : Sub) (p : Nat) (v : Nat) : (commitFail s e u p v).outLen = 0 := rfl
@[simp] theorem commitFail_errPos (s : State) (e : Err) (u : Sub) (p : Nat) (v : Nat) : (commitFail s e u p v).errPos = p := rfl
@[simp] theorem commitFail_errVal (s : State) (e : Err) (u : Sub) (p : Nat) (v : Nat) : (commitFail s e u p v).errVal = v := rfl
@[simp] theorem commitFail_inBuf (s : State) (e : Err) (u : Sub) (p : Nat) (v : Nat) : (commitFail s e u p v).inBuf = s.inBuf := rfl
@[simp] theorem commitFail_outBuf (s : State) (e : Err) (u : Sub) (p : Nat) (v : Nat) : (commitFail s e u p v).outBuf = s.outBuf := rfl
@[simp] theorem commitFail_opLatch (s : State) (e : Err) (u : Sub) (p : Nat) (v : Nat) : (commitFail s e u p v).opLatch = s.opLatch := rfl
@[simp] theorem commitFail_resetIn (s : State) (e : Err) (u : Sub) (p : Nat) (v : Nat) : (commitFail s e u p v).resetIn = s.resetIn := rfl
@[simp] theorem commitFail_freeSeed (s : State) (e : Err) (u : Sub) (p : Nat) (v : Nat) : (commitFail s e u p v).freeSeed = s.freeSeed := rfl
@[simp] theorem commitFail_script (s : State) (e : Err) (u : Sub) (p : Nat) (v : Nat) : (commitFail s e u p v).script = s.script := rfl
@[simp] theorem commitFail_turns (s : State) (e : Err) (u : Sub) (p : Nat) (v : Nat) : (commitFail s e u p v).turns = s.turns := rfl
@[simp] theorem commitFail_seen (s : State) (e : Err) (u : Sub) (p : Nat) (v : Nat) : (commitFail s e u p v).seen = s.seen := rfl

/-! ### `accept` -/

@[simp] theorem accept_cfg (s : State) (c : Byte) : (accept s c).cfg = s.cfg := rfl
@[simp] theorem accept_status (s : State) (c : Byte) : (accept s c).status = busyStatus := rfl
@[simp] theorem accept_inLen (s : State) (c : Byte) : (accept s c).inLen = s.inLen := rfl
@[simp] theorem accept_outLen (s : State) (c : Byte) : (accept s c).outLen = s.outLen := rfl
@[simp] theorem accept_errPos (s : State) (c : Byte) : (accept s c).errPos = s.errPos := rfl
@[simp] theorem accept_errVal (s : State) (c : Byte) : (accept s c).errVal = s.errVal := rfl
@[simp] theorem accept_inBuf (s : State) (c : Byte) : (accept s c).inBuf = s.inBuf := rfl
@[simp] theorem accept_outBuf (s : State) (c : Byte) : (accept s c).outBuf = s.outBuf := rfl
@[simp] theorem accept_opLatch (s : State) (c : Byte) : (accept s c).opLatch = c := rfl
@[simp] theorem accept_resetIn (s : State) (c : Byte) : (accept s c).resetIn = s.resetIn := rfl
@[simp] theorem accept_freeSeed (s : State) (c : Byte) : (accept s c).freeSeed = s.freeSeed := rfl
@[simp] theorem accept_script (s : State) (c : Byte) : (accept s c).script = s.script := rfl
@[simp] theorem accept_turns (s : State) (c : Byte) : (accept s c).turns = s.turns := rfl
@[simp] theorem accept_seen (s : State) (c : Byte) : (accept s c).seen = s.seen := rfl

/-! ### `assertReset` -/

@[simp] theorem assertReset_cfg (s : State) : (assertReset s).cfg = s.cfg := rfl
@[simp] theorem assertReset_status (s : State) : (assertReset s).status = 0x00 := rfl
@[simp] theorem assertReset_inLen (s : State) : (assertReset s).inLen = 0 := rfl
@[simp] theorem assertReset_outLen (s : State) : (assertReset s).outLen = 0 := rfl
@[simp] theorem assertReset_errPos (s : State) : (assertReset s).errPos = 0 := rfl
@[simp] theorem assertReset_errVal (s : State) : (assertReset s).errVal = 0 := rfl
@[simp] theorem assertReset_inBuf (s : State) : (assertReset s).inBuf = [] := rfl
@[simp] theorem assertReset_outBuf (s : State) : (assertReset s).outBuf = [] := rfl
@[simp] theorem assertReset_opLatch (s : State) : (assertReset s).opLatch = 0x00 := rfl
@[simp] theorem assertReset_resetIn (s : State) : (assertReset s).resetIn = true := rfl
@[simp] theorem assertReset_freeSeed (s : State) : (assertReset s).freeSeed = s.freeSeed + s.cfg.nInst := rfl
@[simp] theorem assertReset_script (s : State) : (assertReset s).script = s.script := rfl
@[simp] theorem assertReset_turns (s : State) : (assertReset s).turns = s.turns := rfl
@[simp] theorem assertReset_seen (s : State) : (assertReset s).seen = s.seen := rfl

/-! ### `releaseReset` -/

@[simp] theorem releaseReset_cfg (s : State) : (releaseReset s).cfg = s.cfg := rfl
@[simp] theorem releaseReset_status (s : State) : (releaseReset s).status = s.status := rfl
@[simp] theorem releaseReset_inLen (s : State) : (releaseReset s).inLen = s.inLen := rfl
@[simp] theorem releaseReset_outLen (s : State) : (releaseReset s).outLen = s.outLen := rfl
@[simp] theorem releaseReset_errPos (s : State) : (releaseReset s).errPos = s.errPos := rfl
@[simp] theorem releaseReset_errVal (s : State) : (releaseReset s).errVal = s.errVal := rfl
@[simp] theorem releaseReset_inBuf (s : State) : (releaseReset s).inBuf = s.inBuf := rfl
@[simp] theorem releaseReset_outBuf (s : State) : (releaseReset s).outBuf = s.outBuf := rfl
@[simp] theorem releaseReset_opLatch (s : State) : (releaseReset s).opLatch = s.opLatch := rfl
@[simp] theorem releaseReset_resetIn (s : State) : (releaseReset s).resetIn = false := rfl
@[simp] theorem releaseReset_freeSeed (s : State) : (releaseReset s).freeSeed = s.freeSeed := rfl
@[simp] theorem releaseReset_script (s : State) : (releaseReset s).script = s.script := rfl
@[simp] theorem releaseReset_turns (s : State) : (releaseReset s).turns = s.turns := rfl
@[simp] theorem releaseReset_seen (s : State) : (releaseReset s).seen = s.seen := rfl

/-! ### `setReset`: what it can do, said once -/

/-- Setting the reset input is nothing, an assertion of a released input, or a release. -/
theorem setReset_cases (s : State) (b : Bool) :
    (b = s.resetIn ∧ setReset s b = s) ∨
    (b = true ∧ s.resetIn = false ∧ setReset s b = assertReset s) ∨
    (b = false ∧ s.resetIn = true ∧ setReset s b = releaseReset s) := by
  unfold setReset
  cases b <;> cases s.resetIn <;> simp

/-- Releasing clears the input's level and nothing else, whatever the level was. -/
theorem setReset_false (s : State) : setReset s false = releaseReset s := by
  rcases setReset_cases s false with ⟨h, e⟩ | ⟨h, _, _⟩ | ⟨_, _, e⟩
  · rw [e]; cases s; simp only at h; subst h; rfl
  · cases h
  · exact e

/-- Setting the reset input leaves the HOST agent and the configuration alone. -/
theorem setReset_frame (s : State) (b : Bool) :
    (setReset s b).cfg = s.cfg ∧ State.sameHost s (setReset s b) := by
  rcases setReset_cases s b with ⟨_, e⟩ | ⟨_, _, e⟩ | ⟨_, _, e⟩ <;>
    (rw [e]; exact ⟨rfl, rfl, rfl, rfl⟩)

/-! ### `popTurn` -/

@[simp] theorem popTurn_cfg (s : State) : (s.popTurn).cfg = s.cfg := rfl
@[simp] theorem popTurn_status (s : State) : (s.popTurn).status = s.status := rfl
@[simp] theorem popTurn_inLen (s : State) : (s.popTurn).inLen = s.inLen := rfl
@[simp] theorem popTurn_outLen (s : State) : (s.popTurn).outLen = s.outLen := rfl
@[simp] theorem popTurn_errPos (s : State) : (s.popTurn).errPos = s.errPos := rfl
@[simp] theorem popTurn_errVal (s : State) : (s.popTurn).errVal = s.errVal := rfl
@[simp] theorem popTurn_inBuf (s : State) : (s.popTurn).inBuf = s.inBuf := rfl
@[simp] theorem popTurn_outBuf (s : State) : (s.popTurn).outBuf = s.outBuf := rfl
@[simp] theorem popTurn_opLatch (s : State) : (s.popTurn).opLatch = s.opLatch := rfl
@[simp] theorem popTurn_resetIn (s : State) : (s.popTurn).resetIn = s.resetIn := rfl
@[simp] theorem popTurn_freeSeed (s : State) : (s.popTurn).freeSeed = s.freeSeed := rfl
@[simp] theorem popTurn_script (s : State) : (s.popTurn).script = s.script := rfl
@[simp] theorem popTurn_turns (s : State) : (s.popTurn).turns = s.turns.tail := rfl
@[simp] theorem popTurn_seen (s : State) : (s.popTurn).seen = s.seen := rfl

/-! ### `setScript` -/

@[simp] theorem setScript_cfg (s : State) (l : List HostStep) : (s.setScript l).cfg = s.cfg := rfl
@[simp] theorem setScript_status (s : State) (l : List HostStep) : (s.setScript l).status = s.status := rfl
@[simp] theorem setScript_inLen (s : State) (l : List HostStep) : (s.setScript l).inLen = s.inLen := rfl
@[simp] theorem setScript_outLen (s : State) (l : List HostStep) : (s.setScript l).outLen = s.outLen := rfl
@[simp] theorem setScript_errPos (s : State) (l : List HostStep) : (s.setScript l).errPos = s.errPos := rfl
@[simp] theorem setScript_errVal (s : State) (l : List HostStep) : (s.setScript l).errVal = s.errVal := rfl
@[simp] theorem setScript_inBuf (s : State) (l : List HostStep) : (s.setScript l).inBuf = s.inBuf := rfl
@[simp] theorem setScript_outBuf (s : State) (l : List HostStep) : (s.setScript l).outBuf = s.outBuf := rfl
@[simp] theorem setScript_opLatch (s : State) (l : List HostStep) : (s.setScript l).opLatch = s.opLatch := rfl
@[simp] theorem setScript_resetIn (s : State) (l : List HostStep) : (s.setScript l).resetIn = s.resetIn := rfl
@[simp] theorem setScript_freeSeed (s : State) (l : List HostStep) : (s.setScript l).freeSeed = s.freeSeed := rfl
@[simp] theorem setScript_script (s : State) (l : List HostStep) : (s.setScript l).script = l := rfl
@[simp] theorem setScript_turns (s : State) (l : List HostStep) : (s.setScript l).turns = s.turns := rfl
@[simp] theorem setScript_seen (s : State) (l : List HostStep) : (s.setScript l).seen = s.seen := rfl

/-! ### `pushScript` -/

@[simp] theorem pushScript_cfg (s : State) (l : List HostStep) : (s.pushScript l).cfg = s.cfg := rfl
@[simp] theorem pushScript_status (s : State) (l : List HostStep) : (s.pushScript l).status = s.status := rfl
@[simp] theorem pushScript_inLen (s : State) (l : List HostStep) : (s.pushScript l).inLen = s.inLen := rfl
@[simp] theorem pushScript_outLen (s : State) (l : List HostStep) : (s.pushScript l).outLen = s.outLen := rfl
@[simp] theorem pushScript_errPos (s : State) (l : List HostStep) : (s.pushScript l).errPos = s.errPos := rfl
@[simp] theorem pushScript_errVal (s : State) (l : List HostStep) : (s.pushScript l).errVal = s.errVal := rfl
@[simp] theorem pushScript_inBuf (s : State) (l : List HostStep) : (s.pushScript l).inBuf = s.inBuf := rfl
@[simp] theorem pushScript_outBuf (s : State) (l : List HostStep) : (s.pushScript l).outBuf = s.outBuf := rfl
@[simp] theorem pushScript_opLatch (s : State) (l : List HostStep) : (s.pushScript l).opLatch = s.opLatch := rfl
@[simp] theorem pushScript_resetIn (s : State) (l : List HostStep) : (s.pushScript l).resetIn = s.resetIn := rfl
@[simp] theorem pushScript_freeSeed (s : State) (l : List HostStep) : (s.pushScript l).freeSeed = s.freeSeed := rfl
@[simp] theorem pushScript_script (s : State) (l : List HostStep) : (s.pushScript l).script = l ++ s.script := rfl
@[simp] theorem pushScript_turns (s : State) (l : List HostStep) : (s.pushScript l).turns = s.turns := rfl
@[simp] theorem pushScript_seen (s : State) (l : List HostStep) : (s.pushScript l).seen = s.seen := rfl

/-! ### `recordRead` -/

@[simp] theorem recordRead_cfg (s : State) (sp : Space) (i : Nat) : (recordRead s sp i).cfg = s.cfg := rfl
@[simp] theorem recordRead_status (s : State) (sp : Space) (i : Nat) : (recordRead s sp i).status = s.status := rfl
@[simp] theorem recordRead_inLen (s : State) (sp : Space) (i : Nat) : (recordRead s sp i).inLen = s.inLen := rfl
@[simp] theorem recordRead_outLen (s : State) (sp : Space) (i : Nat) : (recordRead s sp i).outLen = s.outLen := rfl
@[simp] theorem recordRead_errPos (s : State) (sp : Space) (i : Nat) : (recordRead s sp i).errPos = s.errPos := rfl
@[simp] theorem recordRead_errVal (s : State) (sp : Space) (i : Nat) : (recordRead s sp i).errVal = s.errVal := rfl
@[simp] theorem recordRead_inBuf (s : State) (sp : Space) (i : Nat) : (recordRead s sp i).inBuf = s.inBuf := rfl
@[simp] theorem recordRead_outBuf (s : State) (sp : Space) (i : Nat) : (recordRead s sp i).outBuf = s.outBuf := rfl
@[simp] theorem recordRead_opLatch (s : State) (sp : Space) (i : Nat) : (recordRead s sp i).opLatch = s.opLatch := rfl
@[simp] theorem recordRead_resetIn (s : State) (sp : Space) (i : Nat) : (recordRead s sp i).resetIn = s.resetIn := rfl
@[simp] theorem recordRead_freeSeed (s : State) (sp : Space) (i : Nat) : (recordRead s sp i).freeSeed = s.freeSeed := rfl
@[simp] theorem recordRead_script (s : State) (sp : Space) (i : Nat) : (recordRead s sp i).script = s.script := rfl
@[simp] theorem recordRead_turns (s : State) (sp : Space) (i : Nat) : (recordRead s sp i).turns = s.turns := rfl
@[simp] theorem recordRead_seen (s : State) (sp : Space) (i : Nat) : (recordRead s sp i).seen = hostRead s sp i :: s.seen := rfl

/-! ### `latch` -/

@[simp] theorem latch_cfg (s : State) (w : Byte) : (s.latch w).cfg = s.cfg := rfl
@[simp] theorem latch_status (s : State) (w : Byte) : (s.latch w).status = busyStatus := rfl
@[simp] theorem latch_inLen (s : State) (w : Byte) : (s.latch w).inLen = s.inLen := rfl
@[simp] theorem latch_outLen (s : State) (w : Byte) : (s.latch w).outLen = s.outLen := rfl
@[simp] theorem latch_errPos (s : State) (w : Byte) : (s.latch w).errPos = s.errPos := rfl
@[simp] theorem latch_errVal (s : State) (w : Byte) : (s.latch w).errVal = s.errVal := rfl
@[simp] theorem latch_inBuf (s : State) (w : Byte) : (s.latch w).inBuf = s.inBuf := rfl
@[simp] theorem latch_outBuf (s : State) (w : Byte) : (s.latch w).outBuf = s.outBuf := rfl
@[simp] theorem latch_opLatch (s : State) (w : Byte) : (s.latch w).opLatch = w := rfl
@[simp] theorem latch_resetIn (s : State) (w : Byte) : (s.latch w).resetIn = false := rfl
@[simp] theorem latch_freeSeed (s : State) (w : Byte) : (s.latch w).freeSeed = s.freeSeed := rfl
@[simp] theorem latch_script (s : State) (w : Byte) : (s.latch w).script = s.script := rfl
@[simp] theorem latch_turns (s : State) (w : Byte) : (s.latch w).turns = .engine :: s.turns := rfl
@[simp] theorem latch_seen (s : State) (w : Byte) : (s.latch w).seen = s.seen := rfl

end Sys2Proof.Machine
end

