-- ==== Sys2Proof/Laws/Memory.lean ====
section
/-! SUPPORT. The laws of a buffer: read after write, the canonical form, the index range. -/

namespace Sys2Proof.Machine

variable {α : Type}

@[simp] theorem Memory.read_nil (i : Nat) : Memory.read ([] : Memory α) i = none := rfl

@[simp] theorem Memory.read_write_same (m : Memory α) (i : Nat) (v : α) :
    Memory.read (Memory.write m i v) i = some v := by
  induction m with
  | nil => simp [Memory.write, Memory.read]
  | cons x m ih =>
    obtain ⟨a, w⟩ := x
    unfold Memory.write
    split
    · simp [Memory.read]
    · split
      · simp [Memory.read]
      · next h => simp [Memory.read, Ne.symm h, ih]

theorem Memory.read_write_other (m : Memory α) {i j : Nat} (v : α) (h : j ≠ i) :
    Memory.read (Memory.write m i v) j = Memory.read m j := by
  induction m with
  | nil => simp [Memory.write, Memory.read, Ne.symm h]
  | cons x m ih =>
    obtain ⟨a, w⟩ := x
    unfold Memory.write
    split
    · simp [Memory.read, Ne.symm h]
    · split
      · next h' => subst h'; simp [Memory.read, Ne.symm h]
      · simp [Memory.read, ih]

theorem Memory.read_writeAll_outside (vs : List α) (m : Memory α) (i j : Nat)
    (h : j < i ∨ i + vs.length ≤ j) :
    Memory.read (Memory.writeAll m i vs) j = Memory.read m j := by
  induction vs generalizing m i with
  | nil => rfl
  | cons v vs ih =>
    simp only [List.length_cons] at h
    rw [Memory.writeAll, ih _ _ (by omega), Memory.read_write_other _ _ (by omega)]

theorem Memory.read_writeAll_inside (vs : List α) (m : Memory α) (i j : Nat) (h : j < vs.length) :
    Memory.read (Memory.writeAll m i vs) (i + j) = vs[j]? := by
  induction vs generalizing m i j with
  | nil => simp at h
  | cons v vs ih =>
    rw [Memory.writeAll]
    cases j with
    | zero => rw [Memory.read_writeAll_outside _ _ _ _ (by omega)]; simp
    | succ j =>
      rw [show i + (j + 1) = i + 1 + j by omega, ih _ _ _ (by simpa using h)]
      simp

/-- Writing keeps every property of listed pairs that the new pair has. -/
theorem Memory.forall_write {P : Nat × α → Prop} {m : Memory α} {i : Nat} {v : α}
    (h : ∀ x ∈ m, P x) (hv : P (i, v)) : ∀ x ∈ Memory.write m i v, P x := by
  induction m with
  | nil => simpa [Memory.write] using hv
  | cons y m ih =>
    obtain ⟨a, w⟩ := y
    have hm : ∀ x ∈ m, P x := fun x hx => h x (List.mem_cons_of_mem _ hx)
    have hy : P (a, w) := h _ List.mem_cons_self
    unfold Memory.write
    split
    · simpa [hv, hy] using fun a b hab => hm (a, b) hab
    · split
      · simpa [hv] using fun a b hab => hm (a, b) hab
      · simpa [hy] using fun a b hab => ih hm (a, b) hab

/-- A write keeps the canonical form. -/
theorem Memory.write_wf {m : Memory α} (i : Nat) (v : α) (h : Memory.wf m) :
    Memory.wf (Memory.write m i v) := by
  induction m with
  | nil => simp [Memory.write]
  | cons y m ih =>
    obtain ⟨a, w⟩ := y
    obtain ⟨h1, h2⟩ := List.pairwise_cons.mp h
    unfold Memory.write
    split
    · next hlt =>
      refine List.pairwise_cons.mpr ⟨fun x hx => ?_, h⟩
      rcases List.mem_cons.mp hx with rfl | hx
      · exact hlt
      · exact Nat.lt_trans hlt (h1 x hx)
    · split
      · next heq => subst heq; exact List.pairwise_cons.mpr ⟨h1, h2⟩
      · next hnl hne =>
        exact List.pairwise_cons.mpr
          ⟨Memory.forall_write (P := fun x => a < x.1) h1 (by simp only; omega), ih h2⟩

/-- Consecutive writes keep the canonical form. -/
theorem Memory.writeAll_wf (vs : List α) (m : Memory α) (i : Nat) (h : Memory.wf m) :
    Memory.wf (Memory.writeAll m i vs) := by
  induction vs generalizing m i with
  | nil => exact h
  | cons v vs ih => exact ih _ _ (Memory.write_wf i v h)

/-- Consecutive writes stay within the range they cover. -/
theorem Memory.writeAll_index_lt (vs : List α) (m : Memory α) (i n : Nat) (h : ∀ x ∈ m, x.1 < n)
    (hn : i + vs.length ≤ n) : ∀ x ∈ Memory.writeAll m i vs, x.1 < n := by
  induction vs generalizing m i with
  | nil => exact h
  | cons v vs ih =>
    simp only [List.length_cons] at hn
    exact ih _ _ (Memory.forall_write h (by simp only; omega)) (by omega)

/-- A listed value satisfies what every listed pair satisfies. -/
theorem Memory.read_mem {m : Memory α} {i : Nat} {v : α} (h : Memory.read m i = some v) :
    (i, v) ∈ m := by
  induction m with
  | nil => simp at h
  | cons y m ih =>
    obtain ⟨a, w⟩ := y
    simp only [Memory.read] at h
    split at h
    · next ha => cases h; subst ha; exact List.mem_cons_self
    · exact List.mem_cons_of_mem _ (ih h)

/-- Two buffers in canonical form that read alike are the same data. -/
theorem Memory.ext_of_wf {m n : Memory α} (hm : Memory.wf m) (hn : Memory.wf n)
    (h : ∀ i, Memory.read m i = Memory.read n i) : m = n := by
  have none_of_lt : ∀ (l : Memory α) (i : Nat), (∀ x ∈ l, i < x.1) → Memory.read l i = none := by
    intro l i hl
    cases hr : Memory.read l i with
    | none => rfl
    | some v => exact absurd (hl _ (Memory.read_mem hr)) (by simp)
  induction m generalizing n with
  | nil =>
    cases n with
    | nil => rfl
    | cons y n => have := h y.1; simp [Memory.read] at this
  | cons x m ih =>
    obtain ⟨a, v⟩ := x
    cases n with
    | nil => have := h a; simp [Memory.read] at this
    | cons y n =>
      obtain ⟨b, w⟩ := y
      obtain ⟨hm1, hm2⟩ := List.pairwise_cons.mp hm
      obtain ⟨hn1, hn2⟩ := List.pairwise_cons.mp hn
      have hab : a = b := by
        rcases Nat.lt_trichotomy a b with hl | he | hl
        · have := h a
          rw [none_of_lt ((b, w) :: n) a (fun x hx => by
            rcases List.mem_cons.mp hx with rfl | hx
            · exact hl
            · exact Nat.lt_trans hl (hn1 x hx))] at this
          simp [Memory.read] at this
        · exact he
        · have := h b
          rw [none_of_lt ((a, v) :: m) b (fun x hx => by
            rcases List.mem_cons.mp hx with rfl | hx
            · exact hl
            · exact Nat.lt_trans hl (hm1 x hx))] at this
          simp [Memory.read] at this
      subst hab
      have hvw : v = w := by simpa [Memory.read] using h a
      subst hvw
      congr 1
      refine ih hm2 hn2 fun i => ?_
      by_cases hi : a = i
      · subst hi; rw [none_of_lt m a hm1, none_of_lt n a hn1]
      · simpa [Memory.read, hi] using h i

end Sys2Proof.Machine
end

