-- ==== Sys2Proof/Laws/Flags.lean ====
section
/-! SUPPORT. The status register: each status word, and its fields after each update. -/

namespace Sys2Proof.Machine

@[simp] theorem doneStatus_ok : doneStatus .ok .none = 0x02 := by decide
@[simp] theorem doneStatus_len1 : doneStatus .invalidCharacter .len1 = 0x26 := by decide
@[simp] theorem doneStatus_padlen : doneStatus .invalidCharacter .padlen = 0x46 := by decide
@[simp] theorem doneStatus_badchar : doneStatus .invalidCharacter .badchar = 0x66 := by decide
@[simp] theorem doneStatus_dangling : doneStatus .invalidCharacter .dangling = 0x86 := by decide
@[simp] theorem doneStatus_byteRange : doneStatus .byteRange .none = 0x0A := by decide
@[simp] theorem doneStatus_illegalCommand : doneStatus .illegalCommand .none = 0x0E := by decide
@[simp] theorem doneStatus_length : doneStatus .length .none = 0x12 := by decide

theorem doneStatus_busy (e : Err) (u : Sub) : (doneStatus e u).getLsbD 0 = false := by
  cases e <;> cases u <;> decide

theorem doneStatus_done (e : Err) (u : Sub) : (doneStatus e u).getLsbD 1 = true := by
  cases e <;> cases u <;> decide

theorem doneStatus_err (e : Err) (u : Sub) : (doneStatus e u).extractLsb' 2 3 = e.code := by
  cases e <;> cases u <;> decide

theorem doneStatus_sub (e : Err) (u : Sub) : (doneStatus e u).extractLsb' 5 3 = u.code := by
  cases e <;> cases u <;> decide

@[simp] theorem commit_busy (s : State) (r : OpResult) : (commit s r).busy = false := by
  cases r <;> simp only [State.busy, commit, commitOk_status, commitFail_status] <;>
    exact doneStatus_busy _ _

@[simp] theorem commit_done (s : State) (r : OpResult) : (commit s r).done = true := by
  cases r <;> simp only [State.done, commit, commitOk_status, commitFail_status] <;>
    exact doneStatus_done _ _

/-- `ERR` after a commit. -/
theorem commit_err (s : State) (r : OpResult) :
    (commit s r).err = match r with
      | .ok _ => 0
      | .fail e _ _ _ => e.code := by
  cases r <;> simp only [State.err, commit, commitOk_status, commitFail_status] <;>
    exact doneStatus_err _ _

/-- `SUB` after a commit. -/
theorem commit_sub (s : State) (r : OpResult) :
    (commit s r).sub = match r with
      | .ok _ => 0
      | .fail _ u _ _ => u.code := by
  cases r <;> simp only [State.sub, commit, commitOk_status, commitFail_status] <;>
    exact doneStatus_sub _ _

@[simp] theorem accept_busy (s : State) (c : Byte) : (accept s c).busy = true :=
  show busyStatus.getLsbD 0 = true by decide
@[simp] theorem accept_done (s : State) (c : Byte) : (accept s c).done = false :=
  show busyStatus.getLsbD 1 = false by decide
@[simp] theorem assertReset_busy (s : State) : (assertReset s).busy = false :=
  show (0x00 : Byte).getLsbD 0 = false by decide
@[simp] theorem assertReset_done (s : State) : (assertReset s).done = false :=
  show (0x00 : Byte).getLsbD 1 = false by decide
@[simp] theorem releaseReset_busy (s : State) : (releaseReset s).busy = s.busy := rfl
@[simp] theorem releaseReset_done (s : State) : (releaseReset s).done = s.done := rfl
@[simp] theorem popTurn_busy (s : State) : s.popTurn.busy = s.busy := rfl
@[simp] theorem popTurn_done (s : State) : s.popTurn.done = s.done := rfl
@[simp] theorem recordRead_busy (s : State) (sp : Space) (i : Nat) :
    (recordRead s sp i).busy = s.busy := rfl
@[simp] theorem recordRead_done (s : State) (sp : Space) (i : Nat) :
    (recordRead s sp i).done = s.done := rfl
@[simp] theorem setScript_busy (s : State) (l : List HostStep) : (s.setScript l).busy = s.busy := rfl
@[simp] theorem setScript_done (s : State) (l : List HostStep) : (s.setScript l).done = s.done := rfl
@[simp] theorem pushScript_busy (s : State) (l : List HostStep) : (s.pushScript l).busy = s.busy := rfl
@[simp] theorem pushScript_done (s : State) (l : List HostStep) : (s.pushScript l).done = s.done := rfl

end Sys2Proof.Machine
end

