-- ==== Sys2Proof/Laws/Step.lean ====
section
/-! SUPPORT. What one step can do, said once: the operations' frames, and the inversion of `exec`,
`complete` and `step`. -/

namespace Sys2Proof.Machine

/-- The result a command commits. -/
def resultOf (i : Instr) (s : State) : OpResult :=
  match i with
  | .enc => checkLength s (b64Encode s.cfg s.argument)
  | .dec => checkLength s (b64Decode s.cfg s.argument)

/-- Every command answers a next state: the commit of its result. -/
theorem exec_eq_commit (i : Instr) (s : State) : exec i s = .next (commit s (resultOf i s)) := by
  cases i <;> rfl

/-- What a commit leaves alone. -/
theorem commit_frame (s : State) (r : OpResult) :
    (commit s r).cfg = s.cfg ∧ (commit s r).inLen = s.inLen ∧ (commit s r).inBuf = s.inBuf ∧
      (commit s r).opLatch = s.opLatch ∧ (commit s r).resetIn = s.resetIn ∧
      (commit s r).freeSeed = s.freeSeed ∧
      State.sameHost s (commit s r) := by
  cases r <;> exact ⟨rfl, rfl, rfl, rfl, rfl, rfl, rfl, rfl, rfl⟩

/-- The result the engine commits in a busy state, whatever word is latched. -/
def engineResult (s : State) : OpResult :=
  match decode (fetchWord s) with
  | .ok i => resultOf i s
  | .error _ => illegalResult s

/-- `complete` answers a next state: the commit of the engine's result. -/
theorem complete_eq_commit (s : State) : complete s = .next (commit s (engineResult s)) := by
  cases h : decode (fetchWord s) <;> simp [complete, engineResult, h, exec_eq_commit]

/-- The engine's turn, in one formula. -/
theorem engineTurn_eq (s : State) :
    engineTurn s = .next (if s.busy then commit s (engineResult s) else s) := by
  unfold engineTurn
  split <;> simp [complete_eq_commit]

/-- The state a step leaves. -/
def stepState (s : State) : State :=
  match nextAgent s with
  | .engine => if s.busy then commit s.popTurn (engineResult s.popTurn) else s.popTurn
  | .host => hostTurn s.popTurn

/-- Every step answers `stepState`. -/
theorem step_eq (s : State) : step s = .next (stepState s) := by
  unfold step turn stepState
  cases nextAgent s
  · rfl
  · exact engineTurn_eq _

/-- The host's turn with a step to make. -/
theorem hostTurn_cons {s : State} {h : HostStep} {rest : List HostStep} (hs : s.script = h :: rest) :
    hostTurn s = hostStep (s.setScript rest) h := by simp [hostTurn, hs]

/-- The host's turn with nothing to do. -/
theorem hostTurn_nil {s : State} (hs : s.script = []) : hostTurn s = s := by simp [hostTurn, hs]

/-- A step on the host's turn is the host's next step. -/
theorem step_host {s : State} {h : HostStep} {rest : List HostStep} (ha : nextAgent s = .host)
    (hs : s.script = h :: rest) : step s = .next (hostStep (s.popTurn.setScript rest) h) := by
  rw [step_eq, stepState, ha]
  exact congrArg _ (hostTurn_cons hs)

/-- A step on the engine's turn in a busy block commits the engine's result. -/
theorem step_engine {s : State} (ha : nextAgent s = .engine) (hb : s.busy = true) :
    step s = .next (commit s.popTurn (engineResult s.popTurn)) := by
  rw [step_eq, stepState, ha]; simp [hb]

/-- A host write is one of these: nothing, or, in an idle block that is not held in reset, an
acceptance, a length, an element. -/
theorem hostWrite_cases (s : State) (sp : Space) (i v : Nat) :
    hostWrite s sp i v = s ∨
    (s.busy = false ∧ s.resetIn = false ∧ sp = .reg ∧ i = 0 ∧
      hostWrite s sp i v = accept s (BitVec.ofNat 8 v)) ∨
    (s.busy = false ∧ s.resetIn = false ∧ sp = .reg ∧ i = 2 ∧
      hostWrite s sp i v = { s with inLen := v % 2 ^ s.cfg.lenW }) ∨
    (s.busy = false ∧ s.resetIn = false ∧ sp = .inp ∧ i < s.cfg.inCap ∧
      hostWrite s sp i v = { s with inBuf := Memory.write s.inBuf i (v % 2 ^ s.cfg.cuW) }) := by
  unfold hostWrite
  cases hb : s.busy with
  | true => simp
  | false =>
    cases hr : s.resetIn with
    | true => simp
    | false =>
      cases sp with
      | reg =>
        match i with
        | 0 => simp [regWrite]
        | 1 => simp [regWrite]
        | 2 => simp [regWrite, hr]
        | _ + 3 => simp [regWrite]
      | inp =>
        simp only [inWrite]
        by_cases h : i < s.cfg.inCap
        · simp [h, hr]
        · simp [h]
      | out => simp

/-- A host write keeps the configuration and the HOST agent. -/
theorem hostWrite_frame (s : State) (sp : Space) (i v : Nat) :
    (hostWrite s sp i v).cfg = s.cfg ∧ (hostWrite s sp i v).outBuf = s.outBuf ∧
      (hostWrite s sp i v).outLen = s.outLen ∧ (hostWrite s sp i v).errPos = s.errPos ∧
      (hostWrite s sp i v).errVal = s.errVal ∧ (hostWrite s sp i v).resetIn = s.resetIn ∧
      (hostWrite s sp i v).freeSeed = s.freeSeed ∧
      State.sameHost s (hostWrite s sp i v) := by
  rcases hostWrite_cases s sp i v with h | ⟨_, _, _, _, h⟩ | ⟨_, _, _, _, h⟩ | ⟨_, _, _, _, h⟩ <;>
    (rw [h]; exact ⟨rfl, rfl, rfl, rfl, rfl, rfl, rfl, rfl, rfl, rfl⟩)

/-- While the block is busy a host write is nothing. -/
theorem hostWrite_busy {s : State} (h : s.busy = true) (sp : Space) (i v : Nat) :
    hostWrite s sp i v = s := by simp [hostWrite, h]

/-- In an idle block that is not held in reset a host write has the effect of its space. -/
theorem hostWrite_idle {s : State} (hb : s.busy = false) (hr : s.resetIn = false) (sp : Space)
    (i v : Nat) :
    hostWrite s sp i v =
      match sp with
      | .reg => regWrite s v i
      | .inp => inWrite s i v
      | .out => s := by
  simp only [hostWrite, hb, hr]; rfl

/-- While the reset input is asserted a host write is nothing. -/
theorem hostWrite_resetIn {s : State} (h : s.resetIn = true) (sp : Space) (i v : Nat) :
    hostWrite s sp i v = s := by simp [hostWrite, h]

end Sys2Proof.Machine
end

