-- ==== Sys2Proof/Laws/Run.lean ====
section
/-! SUPPORT. Runs of several steps, with the state type written as the model's own. -/

namespace Sys2Proof.Machine

@[simp] theorem run_zero (s : State) : Host.Core.run Sys2Proof.core 0 s = .next s := rfl

/-- A run of one more step goes on from `stepState`. -/
theorem run_succ (k : Nat) (s : State) :
    Host.Core.run Sys2Proof.core (k + 1) s = Host.Core.run Sys2Proof.core k (stepState s) := by
  have h : Sys2Proof.core.step s = .next (stepState s) := step_eq s
  exact (Host.Core.run.eq_2 Sys2Proof.core s k).trans (by rw [h])

theorem run_one (s : State) : Host.Core.run Sys2Proof.core 1 s = .next (stepState s) := by
  rw [run_succ]; rfl

/-- A run can be cut in two. -/
theorem run_trans {j k : Nat} {s t u : State} (h1 : Host.Core.run Sys2Proof.core j s = .next t)
    (h2 : Host.Core.run Sys2Proof.core k t = .next u) :
    Host.Core.run Sys2Proof.core (j + k) s = .next u := by
  induction j generalizing s with
  | zero => rw [run_zero] at h1; injection h1 with h1; subst h1; rwa [Nat.zero_add]
  | succ j ih => rw [Nat.add_right_comm, run_succ]; exact ih (by rwa [run_succ] at h1)

/-- A host step uses up no turn. -/
theorem hostStep_turns (s : State) (h : HostStep) : (hostStep s h).turns = s.turns := by
  cases h with
  | access a =>
    cases a with
    | read => rfl
    | write sp i v => exact (hostWrite_frame s sp i v).2.2.2.2.2.2.2.2.1
  | wait => simp only [hostStep]; split <;> rfl
  | move => rfl
  | copyOut => rfl
  | reset b => exact (setReset_frame s b).2.2.1

/-- A step uses up one fixed turn, if there is one. -/
theorem stepState_turns (s : State) : (stepState s).turns = s.turns.tail := by
  unfold stepState
  split
  · split
    · exact (commit_frame _ _).2.2.2.2.2.2.2.1
    · rfl
  · unfold hostTurn
    split
    · rfl
    · rw [hostStep_turns]; rfl

/-- `t` is reached from `s` with `n` turns beyond those that an agent with nothing to do, or a host
that polls, uses up: at most all the turns fixed beforehand and `n` more, and exactly `n` where no
turn is fixed. -/
def Reaches (s : State) (n : Nat) (t : State) : Prop :=
  ∃ k, Host.Core.run Sys2Proof.core k s = .next t ∧
    k + t.turns.length ≤ s.turns.length + n ∧ (s.turns = [] → k = n ∧ t.turns = [])

theorem Reaches.refl (s : State) : Reaches s 0 s := ⟨0, rfl, by omega, fun h => ⟨rfl, h⟩⟩

theorem Reaches.trans {s t u : State} {m n : Nat} (h1 : Reaches s m t) (h2 : Reaches t n u) :
    Reaches s (m + n) u := by
  obtain ⟨j, r1, l1, e1⟩ := h1
  obtain ⟨k, r2, l2, e2⟩ := h2
  refine ⟨j + k, run_trans r1 r2, by omega, fun h => ?_⟩
  obtain ⟨rfl, ht⟩ := e1 h
  obtain ⟨rfl, hu⟩ := e2 ht
  exact ⟨rfl, hu⟩

/-- In an idle block the host's next step comes, whatever turns are fixed. -/
theorem reaches_hostStep {s : State} {h : HostStep} {rest : List HostStep} (hb : s.busy = false)
    (hs : s.script = h :: rest) :
    ∃ T, Reaches s 1 (hostStep { s with script := rest, turns := T } h) := by
  obtain ⟨l, hl⟩ : ∃ l, s.turns = l := ⟨_, rfl⟩
  induction l generalizing s with
  | nil =>
    have ha : nextAgent s = .host := by simp [nextAgent, hl, hb]
    have e : stepState s = hostStep { s with script := rest, turns := [] } h := by
      have := step_host ha hs
      rw [step_eq] at this
      injection this with this
      rw [this]; cases s; simp only at hl; subst hl; rfl
    refine ⟨[], 1, by rw [run_one, e], ?_, fun _ => ⟨rfl, ?_⟩⟩ <;> simp [hostStep_turns]
  | cons a l ih =>
    cases a with
    | host =>
      have ha : nextAgent s = .host := by simp [nextAgent, hl]
      have e : stepState s = hostStep { s with script := rest, turns := l } h := by
        have := step_host ha hs
        rw [step_eq] at this
        injection this with this
        rw [this]; cases s; simp only at hl; subst hl; rfl
      refine ⟨l, 1, by rw [run_one, e], ?_, fun h0 => by rw [hl] at h0; cases h0⟩
      rw [hostStep_turns, hl]; simp; omega
    | engine =>
      have ha : nextAgent s = .engine := by simp [nextAgent, hl]
      have e : stepState s = s.popTurn := by simp [stepState, ha, hb]
      obtain ⟨T, k, r, hk, _⟩ := ih (s := s.popTurn) hb hs (by simp [hl])
      refine ⟨T, k + 1, by rw [run_succ, e]; exact r, ?_, fun h0 => by rw [hl] at h0; cases h0⟩
      have : s.popTurn.turns.length + 1 = s.turns.length := by simp [hl]
      have hk' : k + (hostStep { s with script := rest, turns := T } h).turns.length ≤
        s.popTurn.turns.length + 1 := hk
      omega

/-- While the host waits, the engine completes, whatever turns are fixed. -/
theorem reaches_complete {s : State} {rest : List HostStep} (hb : s.busy = true)
    (hd : s.done = false) (hs : s.script = .wait :: rest) :
    ∃ T l, Reaches s 1 (commit { s with turns := T, seen := l }
      (engineResult { s with turns := T, seen := l })) := by
  obtain ⟨l, hl⟩ : ∃ l, s.turns = l := ⟨_, rfl⟩
  have engine (ha : nextAgent s = .engine) : stepState s =
      commit { s with turns := s.turns.tail, seen := s.seen }
        (engineResult { s with turns := s.turns.tail, seen := s.seen }) := by
    have := step_engine ha hb
    rw [step_eq] at this
    injection this
  have turnsOf (T : List Agent) (x : List Nat) (r : OpResult) :
      (commit { s with turns := T, seen := x } r).turns = T := (commit_frame _ _).2.2.2.2.2.2.2.1
  induction l generalizing s with
  | nil =>
    have e := engine (by simp [nextAgent, hl, hb])
    refine ⟨s.turns.tail, s.seen, 1, by rw [run_one, e], ?_, fun _ => ⟨rfl, ?_⟩⟩ <;>
      rw [turnsOf] <;> simp [hl]
  | cons a l ih =>
    cases a with
    | engine =>
      have e := engine (by simp [nextAgent, hl])
      refine ⟨s.turns.tail, s.seen, 1, by rw [run_one, e], ?_, fun h0 => by rw [hl] at h0; cases h0⟩
      rw [turnsOf]; simp [hl]; omega
    | host =>
      have ha : nextAgent s = .host := by simp [nextAgent, hl]
      have e : stepState s = { s with turns := l, seen := hostRead s .reg 1 :: s.seen } := by
        have := step_host ha hs
        rw [step_eq] at this
        injection this with this
        have hd' : (s.popTurn.setScript rest).done = false := hd
        rw [this]
        simp only [hostStep, hd', Bool.false_eq_true, if_false]
        cases s; simp only at hl hs; subst hl hs; rfl
      obtain ⟨T, x, k, r, hk, _⟩ := ih (s := { s with turns := l, seen := hostRead s .reg 1 :: s.seen })
        hb hd hs rfl
        (fun ha => by
          have := step_engine ha hb
          rw [step_eq] at this
          injection this)
        (fun _ _ _ => (commit_frame _ _).2.2.2.2.2.2.2.1)
      refine ⟨T, x, k + 1, by rw [run_succ, e]; exact r, ?_, fun h0 => by rw [hl] at h0; cases h0⟩
      have : l.length + 1 = s.turns.length := by simp [hl]
      have hk' : k + (commit { s with turns := T, seen := x }
        (engineResult { s with turns := T, seen := x })).turns.length ≤ l.length + 1 := hk
      omega

end Sys2Proof.Machine
end

