-- ==== Sys2Proof/Laws/Codec.lean ====
section
/-! SUPPORT. One lemma per function of the codec: the configuration's facts, the argument, the
checkers, the lengths, and `decode` in terms of the filtered sequence and its core. -/

namespace Sys2Proof.Machine

/-- What a configuration guarantees (00_scope.md R5 to R8). -/
theorem config_facts (c : Config) :
    9 ≤ c.cuW ∧ 1 ≤ c.inCap ∧ c.outCap < 2 ^ c.lenW ∧ c.alphabet.length = 64 ∧ c.alphabet.Nodup ∧
      (∀ b ∈ c.alphabet, b < 0x80) ∧ (∀ b ∈ c.alphabet, b ≠ pad) ∧
      (∀ b ∈ c.alphabet, b ∉ whitespace) := by
  have h := c.ok
  simp only [Params.wf, Params.cuWOk, Params.inCapOk, Params.lenWOk, Params.alphabetSizeOk,
    Params.alphabetDistinctOk, Params.alphabetAsciiOk, Params.alphabetPadOk, Params.alphabetSpaceOk,
    Params.nInstOk, Bool.and_eq_true, decide_eq_true_eq, List.all_eq_true] at h
  obtain ⟨⟨⟨⟨⟨⟨⟨⟨hcu, hin⟩, hlen⟩, hsize⟩, hnodup⟩, hascii⟩, hpad⟩, hspace⟩, _⟩ := h
  exact ⟨hcu, hin, hlen, hsize, hnodup, hascii, hpad, hspace⟩

@[simp] theorem argument_length (s : State) : s.argument.length = s.inLen := by simp [State.argument]

theorem argument_getElem? (s : State) {i : Nat} (h : i < s.inLen) :
    s.argument[i]? = some (s.inElem i) := by simp [State.argument, h]

/-- The argument depends on `IN_LEN` and the elements below it only. -/
theorem argument_congr {s u : State} (hl : s.inLen = u.inLen)
    (h : ∀ k, k < s.inLen → s.inElem k = u.inElem k) : s.argument = u.argument := by
  unfold State.argument
  rw [← hl]
  exact List.map_congr_left fun k hk => h k (List.mem_range.mp hk)

/-- What the host reads of a committed success. -/
theorem outElem_commit_ok (s : State) (out : List Byte) {j : Nat} (hj : j < out.length) :
    (commit s (.ok out)).outElem j = out.getD j 0 := by
  have := Memory.read_writeAll_inside out s.outBuf 0 j hj
  rw [Nat.zero_add] at this
  simp only [State.outElem, commit, commitOk_outBuf, this]
  simp [hj, List.getD]

/-- `ENC_LUT` reads the table. -/
theorem encLut_eq_getElem (c : Config) (v : Sextet) :
    ∃ h : v.toNat < c.alphabet.length, encLut c v = c.alphabet[v.toNat] := by
  have : v.toNat < c.alphabet.length := by
    rw [(config_facts c).2.2.2.1]; exact v.isLt
  exact ⟨this, by simp [encLut, this, List.getD]⟩

theorem encLut_mem (c : Config) (v : Sextet) : encLut c v ∈ c.alphabet := by
  obtain ⟨h, e⟩ := encLut_eq_getElem c v
  rw [e]; exact List.getElem_mem h

theorem isWs_iff (u : Nat) : isWs u = true ↔ u ∈ [0x09, 0x0A, 0x0C, 0x0D, 0x20] := by
  simp only [isWs, whitespace, List.any_cons, List.any_nil, Bool.or_false, Bool.or_eq_true,
    beq_iff_eq, List.mem_cons, List.not_mem_nil, or_false]
  show (32 = u ∨ 9 = u ∨ 10 = u ∨ 12 = u ∨ 13 = u) ↔ _
  constructor <;> intro h <;> (rcases h with h | h | h | h | h <;> subst h <;> decide)

theorem isPad_iff (u : Nat) : isPad u = true ↔ u = 0x3D := by
  simp only [isPad, beq_iff_eq]
  exact eq_comm

/-- The range check passes exactly on byte sequences. -/
theorem firstWide_eq_none_iff {a : List Nat} : firstWide a = none ↔ ∀ u ∈ a, u ≤ 0xFF := by
  unfold firstWide
  rw [List.find?_eq_none]
  simp only [decide_eq_true_eq, Nat.not_lt]
  constructor
  · intro h u hu
    obtain ⟨k, hk, rfl⟩ := List.getElem_of_mem hu
    exact h (a[k], k) (by rw [List.mem_zipIdx_iff_getElem?]; simp [hk])
  · rintro h ⟨u, k⟩ hx
    rw [List.mem_zipIdx_iff_getElem?] at hx
    exact h u (List.mem_of_getElem? hx)

theorem encodeBytes_length (c : Config) (b : List Byte) :
    (encodeBytes c b).length = 4 * ((b.length + 2) / 3) := by
  fun_induction encodeBytes c b with
  | case1 b0 b1 b2 rest ih => simp [padGroup, regroup3, ih]; omega
  | case2 => simp [padGroup, regroup2]
  | case3 => simp [padGroup, regroup1]
  | case4 => simp

theorem unpackAll_length (v : List Sextet) : (unpackAll v).length = 3 * v.length / 4 := by
  fun_induction unpackAll v with
  | case1 v0 v1 v2 v3 rest ih => simp [unpack4, ih]; omega
  | case2 => simp [unpack3]
  | case3 => simp [unpack2]
  | case4 => simp
  | case5 => simp

/-- The filter keeps what is not whitespace. -/
theorem normalizeWs_eq_filter (a : List Nat) : normalizeWs a = a.filter fun u => !isWs u := by
  have : ∀ n, ((a.zipIdx n).filter fun x => !isWs x.1).map Prod.fst = a.filter fun u => !isWs u := by
    induction a with
    | nil => intro; rfl
    | cons u a ih =>
      intro n
      rw [List.zipIdx_cons, List.filter_cons, List.filter_cons]
      simp only
      split <;> simp [ih]
  exact this 0

theorem filterWs_length (a : List Nat) : (filterWs a).length = (normalizeWs a).length := by
  simp [normalizeWs]

theorem padsRemoved_le (m : PadStrip) (s : List Nat) :
    padsRemoved m s ≤ 2 ∧ padsRemoved m s ≤ s.length := by
  have : trailingPads s ≤ s.length := by
    unfold trailingPads
    simpa using (List.takeWhile_sublist isPad (l := s.reverse)).length_le
  cases m <;> simp only [padsRemoved]
  · omega
  · split <;> omega

theorem coreOf_length (m : PadStrip) (s : List Nat) :
    (coreOf m s).length = s.length - padsRemoved m s := by simp [coreOf]

/-- The core's elements, whichever way it is taken. -/
theorem map_fst_core (m : PadStrip) (a : List Nat) :
    ((filterWs a).take ((filterWs a).length - padsRemoved m (normalizeWs a))).map Prod.fst =
      coreOf m (normalizeWs a) := by
  simp [coreOf, normalizeWs, List.map_take]

end Sys2Proof.Machine
end

