-- ==== Sys2Proof/Laws/PerInstr.lean ====
section
/-! SUPPORT. Statements made once per command. -/

/-- The command's row of the opcode table: its word, compared on all 8 bits (30_encoding.md R90, R91). -/
def Sys2Proof.Laws.Encoded.Statement (i : Sys2Proof.Instr) : Prop :=
  i.wf = true ∧
    { instr := i, mask := 0xFF, pattern := Sys2Proof.encode i } ∈ Sys2Proof.opcodeTable

theorem Sys2Proof.Laws.Encoded.enc : Sys2Proof.Laws.Encoded.Statement .enc := by
  unfold Sys2Proof.Laws.Encoded.Statement; decide

theorem Sys2Proof.Laws.Encoded.dec : Sys2Proof.Laws.Encoded.Statement .dec := by
  unfold Sys2Proof.Laws.Encoded.Statement; decide
end

