-- ==== Sys2Proof/Tests/Slice0.lean ====
section
/-! SUPPORT. The model's own tests: the configuration checks, decoding, each command on the spec's own
vectors (95_test_vectors.md), and a witness for the hypotheses of every statement. -/

namespace Sys2Proof.Tests

set_option Elab.async false

open Sys2Proof Sys2Proof.Machine

/-! ## The checks of a configuration: each refuses an ill-formed one -/

theorem test_ref_is_wellformed : Params.ref.wf = true := by decide +kernel
theorem test_narrow_elements_refused : Config.ofParams { Params.ref with cuW := 8 } = none := by decide +kernel
theorem test_empty_buffer_refused : Config.ofParams { Params.ref with inCap := 0 } = none := by decide +kernel
theorem test_narrow_lengths_refused : Config.ofParams { Params.ref with lenW := 12 } = none := by decide +kernel
theorem test_short_alphabet_refused :
    Config.ofParams { Params.ref with alphabet := alphabetRFC4648.tail } = none := by decide +kernel
theorem test_repeated_symbol_refused :
    Config.ofParams { Params.ref with alphabet := 0x42 :: alphabetRFC4648.tail } = none := by decide +kernel
theorem test_non_ascii_symbol_refused :
    Config.ofParams { Params.ref with alphabet := 0x80 :: alphabetRFC4648.tail } = none := by decide +kernel
theorem test_pad_symbol_refused :
    Config.ofParams { Params.ref with alphabet := 0x3D :: alphabetRFC4648.tail } = none := by decide +kernel
theorem test_space_symbol_refused :
    Config.ofParams { Params.ref with alphabet := 0x20 :: alphabetRFC4648.tail } = none := by decide +kernel
theorem test_no_copies_refused : Config.ofParams { Params.ref with nInst := 0 } = none := by decide +kernel

/-! ## Decoding (30_encoding.md R91, R93) -/

theorem test_enc_word : decode 0b00000001 = .ok .enc := by decide
theorem test_dec_word : decode 0b00000010 = .ok .dec := by decide
theorem test_zero_word_is_illegal : decode 0b00000000 = .error (.illegalCommand 0x00) := by decide
theorem test_high_bit_is_illegal : decode 0b10000001 = .error (.illegalCommand 0x81) := by decide

/-! ## The tables (95_test_vectors.md section 2) -/

theorem test_enc_lut : (encLut Config.ref 25, encLut Config.ref 26, encLut Config.ref 62,
    encLut Config.ref 63) = (0x5A, 0x61, 0x2B, 0x2F) := by decide
theorem test_dec_lut_upper_bits : decLut Config.ref 0x0141 = none ∧ decLut Config.ref 0x2D = none := by
  decide

/-! ## One step of each command, on the spec's vectors -/

/-- A block whose argument is `a`, with the next step the engine's and the word `w` latched. -/
def loaded (w : Byte) (a : List Nat) : State :=
  { State.reset with
    inLen := a.length, inBuf := Memory.writeAll [] 0 a, opLatch := w, status := 0x01 }

/-- `STATUS`, `OUT_LEN`, `ERR_POS`, `ERR_VAL` and the written output after a step. -/
def after (s : State) : Option (Byte × Nat × Nat × Nat × List Byte) :=
  match step s with
  | .next t => some (t.status, t.outLen, t.errPos, t.errVal, t.outBuf.map Prod.snd)
  | _ => none

/-- `"Hello World"`. -/
def hello : List Nat := [0x48, 0x65, 0x6C, 0x6C, 0x6F, 0x20, 0x57, 0x6F, 0x72, 0x6C, 0x64]

/-- 95_test_vectors.md S8. -/
theorem test_enc_hello_world : after (loaded 0x01 hello) = some (0x02, 16, 0, 0,
    [0x53, 0x47, 0x56, 0x73, 0x62, 0x47, 0x38, 0x67, 0x56, 0x32, 0x39, 0x79, 0x62, 0x47, 0x51, 0x3D]) := by
  decide +kernel

/-- 95_test_vectors.md section 4, two offenders: the first is reported. -/
theorem test_enc_first_wide_element :
    after (loaded 0x01 [0x0041, 0xFFFF, 0x0100]) = some (0x0A, 0, 1, 0xFFFF, []) := by decide +kernel

/-- 95_test_vectors.md S6. -/
theorem test_dec_hello_world :
    after (loaded 0x02 hello) = some (0x02, 7, 0, 0, [0x1D, 0xE9, 0x65, 0xA1, 0x6A, 0x2B, 0x95]) := by
  decide +kernel

/-- 95_test_vectors.md section 5, `" Z m !"`: the position counts whitespace. -/
theorem test_dec_bad_character_position :
    after (loaded 0x02 [0x20, 0x5A, 0x20, 0x6D, 0x20, 0x21]) = some (0x66, 0, 5, 0x21, []) := by
  decide +kernel

/-- 95_test_vectors.md section 6. -/
theorem test_illegal_command : after (loaded 0x81 []) = some (0x0E, 0, 0, 0x81, []) := by decide +kernel

/-- 42_decoder.md R151: the two `PAD_STRIP` modes on `"QQ="`. -/
theorem test_pad_strip_modes :
    b64Decode Config.ref [0x51, 0x51, 0x3D] = .ok [0x41] ∧
    b64Decode (Config.ref.withPadStrip .aligned) [0x51, 0x51, 0x3D] =
      .fail .invalidCharacter .badchar 2 0x3D := by decide +kernel

/-- The memory of the state after reset is in canonical form. -/
theorem test_reset_memory_wf : Memory.wf State.reset.inBuf ∧ Memory.wf State.reset.outBuf := by decide

/-! ## Witnesses: a concrete state that meets all hypotheses of each statement -/

/-- An idle block with one host step to make. -/
def idleWith (h : HostStep) : State := { State.reset with script := [h] }

/-- A busy block whose host has the next turn and one step to make. -/
def busyWith (h : HostStep) : State :=
  { accept State.reset 0x02 with script := [h], turns := [.host] }

theorem witness_CommandWordsDecodeByTable : (0x00 : Byte) ≠ 0x01 ∧ (0x00 : Byte) ≠ 0x02 := by decide

theorem witness_DecodeAndEncodeAgree : Instr.enc.wf = true ∧ decode 0x02 = .ok .dec := by decide

theorem witness_StepRunsLatchedCommand :
    nextAgent (loaded 0x01 hello) = .engine ∧ (loaded 0x01 hello).busy = true ∧
      decode (loaded 0x01 hello).opLatch = .ok .enc := by decide

theorem witness_IllegalWordRecordsIllegalCommand :
    nextAgent (loaded 0x03 []) = .engine ∧ (loaded 0x03 []).busy = true ∧
      (loaded 0x03 []).opLatch ≠ 0x01 ∧ (loaded 0x03 []).opLatch ≠ 0x02 := by decide

theorem witness_IdleEngineDoesNothing :
    nextAgent { State.reset with turns := [.engine] } = .engine ∧
      ({ State.reset with turns := [.engine] } : State).busy = false := by decide

theorem witness_CommandWriteIsAccepted :
    nextAgent (idleWith lineEnc) = .host ∧ (idleWith lineEnc).busy = false ∧
      (idleWith lineEnc).resetIn = false ∧
      (idleWith lineEnc).script = .access (.write .reg 0 (0x01 : Byte).toNat) :: [] := by decide

theorem witness_BusyWritesAreIgnored :
    nextAgent (busyWith (lineWrIn 0 0x21)) = .host ∧ (busyWith (lineWrIn 0 0x21)).busy = true ∧
      (busyWith (lineWrIn 0 0x21)).script = .access (.write .inp 0 0x21) :: [] := by decide

theorem witness_HostReadsChangeNothing :
    nextAgent (busyWith lineRdStatus) = .host ∧
      (busyWith lineRdStatus).script = .access (.read .reg 1) :: [] := by decide

theorem inv_accepted : (accept State.reset 0x01).Inv where
  statusShape := by decide
  alignedShape := by decide
  inLenFits := by decide
  outLenFits := by decide
  errPosFits := by decide
  errValFits := by decide
  inBufForm := by decide
  inBufRange := by intro x hx; cases hx
  outBufForm := by decide
  outBufRange := by intro x hx; cases hx
  okRecord := by decide
  failLength := by decide
  resultWritten := by intro h; exact absurd h (by decide)
  resetRecord := by decide
  resetHeld := by intro h; exact absurd h (by decide)

theorem witness_HostReadsReturnTheElement :
    (accept State.reset 0x01).Inv ∧ (accept State.reset 0x01).busy = true ∧
      3071 < (accept State.reset 0x01).cfg.inCap ∧ 4095 < (accept State.reset 0x01).cfg.outCap :=
  ⟨inv_accepted, by decide, by decide, by decide⟩

theorem witness_UnmappedRegistersAreHarmless : 6 ≤ 6 := by decide

theorem witness_OutOfRangeAccessesAreHarmless :
    State.reset.cfg.inCap ≤ 3072 ∧ State.reset.cfg.outCap ≤ 4096 := by decide

theorem witness_HostWriteStoresOneElement :
    State.reset.busy = false ∧ State.reset.resetIn = false ∧ 3071 < State.reset.cfg.inCap ∧ (0 : Nat) ≠ 3071 ∧ (1 : Nat) ≠ 2 := by
  decide

theorem witness_DoneOutputFollowsCompletion :
    (∃ t, engineTurn (loaded 0x01 hello) = .next t) ∧ (loaded 0x01 hello).busy = true ∧
      ¬(Space.reg = .reg ∧ 2 = 0) := ⟨⟨_, engineTurn_eq _⟩, by decide, by decide⟩

theorem witness_ResetAbandonsOperation :
    nextAgent (busyWith (.reset true)) = .host ∧ (busyWith (.reset true)).script = .reset true :: [] ∧
      (busyWith (.reset true)).resetIn = false := by decide

/-- A block held in reset, with the host step `h` to come. -/
def heldWith (h : HostStep) : State := { assertReset (busyWith h) with script := [h], turns := [] }

/-- The other alternative: the input is asserted already. -/
theorem witness_ResetAbandonsOperation_held :
    nextAgent (heldWith (.reset true)) = .host ∧ (heldWith (.reset true)).script = .reset true :: [] ∧
      (heldWith (.reset true)).resetIn = true := by decide

theorem inv_held (h : HostStep) : (heldWith h).Inv where
  statusShape := show (0x00 : Byte) ∈ statusWords by decide
  alignedShape := fun _ => show (0x00 : Byte) ≠ 0x46 ∧ (0x00 : Byte) ≠ 0x86 by decide
  inLenFits := show 0 < 2 ^ 16 by decide
  outLenFits := Nat.zero_le _
  errPosFits := show 0 < 2 ^ 16 by decide
  errValFits := show 0 < 2 ^ 16 by decide
  inBufForm := List.Pairwise.nil
  inBufRange := by intro x hx; cases hx
  outBufForm := List.Pairwise.nil
  outBufRange := by intro x hx; cases hx
  okRecord := fun _ _ => ⟨rfl, rfl⟩
  failLength := fun _ _ => rfl
  resultWritten := by intro _ j hj; cases hj
  resetRecord := fun _ => ⟨rfl, rfl, rfl⟩
  resetHeld := fun _ => ⟨rfl, rfl, rfl, rfl⟩

theorem witness_HeldResetKeepsResetState :
    (heldWith lineEnc).Inv ∧ (heldWith lineEnc).resetIn = true ∧
      (heldWith lineEnc).script.head? ≠ some (.reset false) ∧ ∃ t, step (heldWith lineEnc) = .next t :=
  ⟨inv_held _, by decide, by decide, _, step_eq _⟩

theorem witness_ReleasedResetAcceptsCommand :
    nextAgent (heldWith (.reset false)) = .host ∧
      (heldWith (.reset false)).script = .reset false :: [] ∧
      (heldWith (.reset false)).Inv ∧ (heldWith (.reset false)).resetIn = true :=
  ⟨by decide, by decide, inv_held _, by decide⟩

/-- 70_reset_and_hazards.md R250: a command written while reset is held is not accepted. -/
theorem test_held_reset_ignores_command : after (heldWith lineEnc) = some (0x00, 0, 0, 0, []) := by
  decide +kernel

theorem witness_StepKeepsBlockInvariant :
    (accept State.reset 0x01).Inv ∧ ∃ t, step (accept State.reset 0x01) = .next t :=
  ⟨inv_accepted, _, step_eq _⟩

theorem witness_NoStepChangesConfiguration : ∃ t, step State.reset = .next t := ⟨_, step_eq _⟩

theorem witness_AcceptedCommandCompletes : (busyWith lineRdStatus).busy = true := by decide

/-- A dropped write comes before the engine's step: two steps from busy to idle. -/
theorem witness_OutcomeIndependentOfInterleaving :
    ∃ t e : State, (busyWith (lineWrIn 0 0x21)).busy = true ∧
      (∀ b, HostStep.reset b ∉ (busyWith (lineWrIn 0 0x21)).script) ∧
      engineTurn (busyWith (lineWrIn 0 0x21)) = .next e ∧
      Host.Core.run Sys2Proof.core 2 (busyWith (lineWrIn 0 0x21)) = .next t ∧ t.busy = false ∧
      ∀ (j : Nat) (u : State), j < 2 →
        Host.Core.run Sys2Proof.core j (busyWith (lineWrIn 0 0x21)) = .next u → u.busy = true := by
  refine ⟨_, _, by decide, by decide, engineTurn_eq _, by rw [run_succ, run_succ]; rfl, by decide +kernel, ?_⟩
  intro j u hj hu
  match j with
  | 0 => rw [run_zero] at hu; injection hu with hu; subst hu; decide
  | 1 => rw [run_one] at hu; injection hu with hu; subst hu; decide +kernel

theorem witness_CopiesDoNotAffectEachOther :
    (Copies.reset Config.ref).blocks[0]? = some (State.resetWith Config.ref 0) ∧
      (∃ ds, (Copies.reset Config.ref).step 0 = .next ds) ∧ (1 : Nat) ≠ 0 := by
  refine ⟨by decide, ?_, by decide⟩
  have h : (Copies.reset Config.ref).blocks[0]? = some (State.resetWith Config.ref 0) := by decide
  exact ⟨_, by simp only [Copies.step, h, step_eq]; rfl⟩

theorem witness_FailureWritesOnlyTheRecord :
    ∃ t, exec .enc (loaded 0x01 [0x100]) = .next t ∧ t.err ≠ 0 :=
  ⟨_, exec_eq_commit _ _, by decide +kernel⟩

theorem witness_CommandFrame :
    ∃ t, exec .enc (loaded 0x01 hello) = .next t ∧ t.outLen ≤ 16 ∧ t.err = 0 ∧ 15 < t.outLen :=
  ⟨_, exec_eq_commit _ _, by decide +kernel, by decide +kernel, by decide +kernel⟩

theorem witness_EachCommandHasItsFailures :
    ∃ t, exec .dec (loaded 0x02 [0x41]) = .next t ∧ t.sub ≠ 0 :=
  ⟨_, exec_eq_commit _ _, by decide +kernel⟩

theorem witness_LongArgumentRecordsLengthError :
    ({ State.reset with inLen := 3073 } : State).inLen > State.reset.cfg.inCap := by decide

theorem witness_OutcomeIndependentOfHistory :
    (loaded 0x01 hello).cfg = (loaded 0x02 hello).cfg ∧
      (loaded 0x01 hello).inLen = (loaded 0x02 hello).inLen ∧
      ∀ k, k < (loaded 0x01 hello).inLen → (loaded 0x01 hello).inElem k = (loaded 0x02 hello).inElem k :=
  ⟨rfl, rfl, fun _ _ => rfl⟩

theorem witness_WrittenArgumentFixesOutcome : (loaded 0x01 hello).argWritten := by
  unfold State.argWritten; decide +kernel

theorem witness_LookupTablesAreInverse : decLut Config.ref 0x2F = some 63 := by decide +kernel

theorem witness_ElementClassesAreDisjoint :
    (0x80 ≤ 0x80) ∧ classify Config.ref 0x80 = .invalid ∧ classify Config.ref 0x7A = .sym 51 := by
  decide +kernel

theorem witness_IndexMapFindsEachElement : 3 < (normalizeWs [0x20, 0x5A, 0x20, 0x6D, 0x39, 0x76]).length := by
  decide

theorem witness_FilterLaws :
    (∀ u ∈ [0x20, 0x0A], isWs u = true) ∧ b64Encode Config.ref [0x66] = .ok [0x5A, 0x67, 0x3D, 0x3D] := by
  decide +kernel

theorem witness_EncCompletesWithSymbols :
    (loaded 0x01 [0xFF]).inLen ≤ (loaded 0x01 [0xFF]).cfg.inCap ∧
      ∀ i, i < (loaded 0x01 [0xFF]).inLen → (loaded 0x01 [0xFF]).inElem i ≤ 0xFF := by decide +kernel

theorem witness_EncWideElementRecordsByteRange :
    (loaded 0x01 [0xFF, 0x100]).inLen ≤ (loaded 0x01 [0xFF, 0x100]).cfg.inCap ∧
      1 < (loaded 0x01 [0xFF, 0x100]).inLen ∧ (loaded 0x01 [0xFF, 0x100]).inElem 1 > 0xFF ∧
      ∀ k, k < 1 → (loaded 0x01 [0xFF, 0x100]).inElem k ≤ 0xFF := by decide +kernel

theorem witness_EncoderOutputIsEncodedString :
    b64Encode Config.ref [0x66, 0x6F] = .ok [0x5A, 0x6D, 0x38, 0x3D] := by decide +kernel

theorem witness_ReencodingIsCanonicalForm :
    b64Decode Config.ref [0x5A, 0x68] = .ok [0x66] := by decide +kernel

theorem witness_DecCompletesWithBytes :
    (loaded 0x02 [0x5A, 0x67, 0x3D, 0x3D]).inLen ≤ State.reset.cfg.inCap ∧
      (normalizeWs (loaded 0x02 [0x5A, 0x67, 0x3D, 0x3D]).argument).length % 4 ≠ 1 ∧
      [(25 : Sextet), 32].length % 4 ≠ 1 ∧
      coreOf State.reset.cfg.padStrip (normalizeWs (loaded 0x02 [0x5A, 0x67, 0x3D, 0x3D]).argument) =
        [(25 : Sextet), 32].map fun v => (encLut State.reset.cfg v).toNat := by decide +kernel

/-- Stage 2, on `"A"`. -/
theorem witness_DecFailuresInOrder_len1 :
    (loaded 0x02 [0x41]).inLen ≤ State.reset.cfg.inCap ∧
      (normalizeWs (loaded 0x02 [0x41]).argument).length % 4 = 1 := by decide +kernel

/-- Stage 3, on `"A="`. -/
theorem witness_DecFailuresInOrder_padlen :
    (normalizeWs (loaded 0x02 [0x41, 0x3D]).argument).length % 4 ≠ 1 ∧
      padsRemoved State.reset.cfg.padStrip (normalizeWs (loaded 0x02 [0x41, 0x3D]).argument) = 1 ∧
      (coreOf State.reset.cfg.padStrip (normalizeWs (loaded 0x02 [0x41, 0x3D]).argument)).length % 4 = 1 := by
  decide +kernel

/-- Stage 4, on `"!=="`: before `DANGLING`. -/
theorem witness_DecFailuresInOrder_badchar :
    (normalizeWs (loaded 0x02 [0x21, 0x3D, 0x3D]).argument).length % 4 ≠ 1 ∧
      ¬(padsRemoved State.reset.cfg.padStrip (normalizeWs (loaded 0x02 [0x21, 0x3D, 0x3D]).argument) = 1 ∧
        (coreOf State.reset.cfg.padStrip
          (normalizeWs (loaded 0x02 [0x21, 0x3D, 0x3D]).argument)).length % 4 = 1) ∧
      (coreOf State.reset.cfg.padStrip
        (normalizeWs (loaded 0x02 [0x21, 0x3D, 0x3D]).argument))[0]? = some 0x21 ∧
      decLut State.reset.cfg 0x21 = none := by decide +kernel

/-- Stage 5, on `"A=="`. -/
theorem witness_DecFailuresInOrder_dangling :
    (normalizeWs (loaded 0x02 [0x41, 0x3D, 0x3D]).argument).length % 4 ≠ 1 ∧
      padsRemoved State.reset.cfg.padStrip (normalizeWs (loaded 0x02 [0x41, 0x3D, 0x3D]).argument) ≠ 1 ∧
      (∀ u ∈ coreOf State.reset.cfg.padStrip (normalizeWs (loaded 0x02 [0x41, 0x3D, 0x3D]).argument),
        (decLut State.reset.cfg u).isSome = true) ∧
      (coreOf State.reset.cfg.padStrip
        (normalizeWs (loaded 0x02 [0x41, 0x3D, 0x3D]).argument)).length % 4 = 1 := by decide +kernel

/-- `""`, `"="` and `"QQ="`: one input for each alternative of the third clause but the first two,
which the first input meets together, and one for the fourth clause. -/
theorem witness_PadStripModesCompared :
    (trailingPads (normalizeWs []) = 0 ∧ (normalizeWs []).length % 4 = 0) ∧
      (normalizeWs [0x3D]).length % 4 = 1 ∧
      (1 ≤ trailingPads (normalizeWs [0x51, 0x51, 0x3D]) ∧
        (normalizeWs [0x51, 0x51, 0x3D]).length % 4 = 3) ∧ Sub.len1 ≠ .none := by decide +kernel

theorem witness_DecodedLengthFits :
    b64Decode Config.ref [0x51, 0x51] = .ok [0x41] ∧ [0x51, 0x51].length ≤ Config.ref.inCap := by
  decide +kernel

/-- An idle block with a program to run, and a schedule under which the engine is idle for a turn and
`WAIT` polls twice before it completes. -/
def polling (l : List HostStep) : State :=
  { State.reset with script := l, turns := [.engine, .host, .host, .host, .host, .host, .engine] }

theorem witness_CallEncComputesEncode :
    (polling (callEncLines [0x66])).busy = false ∧ (polling (callEncLines [0x66])).resetIn = false ∧
      (polling (callEncLines [0x66])).script = callEncLines [0x66] ++ [] ∧
      [0x66].length ≤ State.reset.cfg.inCap ∧ ∀ u ∈ [0x66], u < 2 ^ State.reset.cfg.cuW := by decide +kernel

theorem witness_CallDecComputesDecode :
    (polling (callDecLines [0xFFFF])).busy = false ∧ (polling (callDecLines [0xFFFF])).resetIn = false ∧
      (polling (callDecLines [0xFFFF])).script = callDecLines [0xFFFF] ++ [] ∧
      [0xFFFF].length ≤ State.reset.cfg.inCap ∧ ∀ u ∈ [0xFFFF], u < 2 ^ State.reset.cfg.cuW := by
  decide +kernel

/-- A finished block with a result to move. -/
def finished : State :=
  { State.reset with status := 0x02, outLen := 2, outBuf := [(0, 0x41), (1, 0x42)], script := [.move] }

theorem witness_MoveCopiesResultToArgument :
    finished.busy = false ∧ finished.resetIn = false ∧ finished.script = .move :: [] ∧
      finished.outLen ≤ finished.cfg.inCap := by decide

theorem witness_RoundTripProgramReturnsBytes :
    (polling (callEncLines ([(0x66 : Byte)].map BitVec.toNat) ++ ([.move, lineDec, .wait] ++ []))).busy = false ∧
      (polling (callEncLines ([(0x66 : Byte)].map BitVec.toNat) ++ ([.move, lineDec, .wait] ++ []))).resetIn =
        false ∧
      [(0x66 : Byte)].length ≤ State.reset.cfg.inCap ∧
      4 * (([(0x66 : Byte)].length + 2) / 3) ≤ State.reset.cfg.inCap := by decide +kernel

end Sys2Proof.Tests
end

section
/-! The block and its surroundings (00_scope.md): what the engine computes depends on the block alone
(R15, R69), and a command's outcome on its argument and the parameters alone (R17). -/

namespace Sys2Proof.Machine

/-! ### States that hold the same block -/

theorem State.sameBlock.refl (s : State) : s.sameBlock s :=
  ⟨rfl, rfl, rfl, rfl, rfl, rfl, rfl, rfl, rfl, rfl, rfl⟩

/-- A state with the same block differs in the HOST agent's three fields only. -/
theorem State.sameBlock_iff {s t : State} :
    s.sameBlock t ↔ t = { s with script := t.script, turns := t.turns, seen := t.seen } := by
  cases s
  cases t
  simp [State.sameBlock]

theorem State.sameBlock.trans {s t u : State} (hst : s.sameBlock t) (htu : t.sameBlock u) :
    s.sameBlock u := by
  rw [State.sameBlock_iff] at *
  rw [htu, hst]

theorem State.sameBlock.busy_eq {s t : State} (h : s.sameBlock t) : t.busy = s.busy := by
  rw [State.sameBlock_iff.mp h]
  rfl

theorem sameBlock_popTurn (s : State) : s.sameBlock s.popTurn := State.sameBlock.refl s

theorem sameBlock_setScript (s : State) (l : List HostStep) : s.sameBlock (s.setScript l) :=
  State.sameBlock.refl s

/-- The engine's result is a function of the block. -/
theorem State.sameBlock.engineResult_eq {s t : State} (h : s.sameBlock t) :
    engineResult t = engineResult s := by
  rw [State.sameBlock_iff.mp h]
  rfl

/-- Committing one result to the same block gives the same block. -/
theorem State.sameBlock.commit {s t : State} (h : s.sameBlock t) (r : OpResult) :
    (Machine.commit s r).sameBlock (Machine.commit t r) := by
  rw [State.sameBlock_iff.mp h]
  cases r <;> exact State.sameBlock.refl _

/-- `complete` makes the same block of the same block (10_state.md R40). -/
theorem State.sameBlock.complete {s t : State} (h : s.sameBlock t) :
    (Machine.commit s (engineResult s)).sameBlock (Machine.commit t (engineResult t)) := by
  rw [h.engineResult_eq]
  exact h.commit _

/-! ### The host's turn while the block is busy -/

/-- No reset of the block is among the host steps to come. -/
def State.NoReset (s : State) : Prop := ∀ b, HostStep.reset b ∉ s.script

/-- While the block is busy no host step but a reset changes it (10_state.md R42, R43). -/
theorem hostStep_busy_sameBlock {s : State} {h : HostStep} (hb : s.busy = true)
    (hr : ∀ b, h ≠ .reset b) : s.sameBlock (hostStep s h) := by
  cases h with
  | access a =>
    cases a with
    | read => exact State.sameBlock.refl s
    | write sp i v =>
      rw [hostStep, hostAccess, hostWrite_busy hb]
      exact State.sameBlock.refl s
  | wait =>
    rw [hostStep]
    split <;> exact State.sameBlock.refl s
  | move => exact State.sameBlock.refl s
  | copyOut => exact State.sameBlock.refl s
  | reset b => exact absurd rfl (hr b)

/-- What `WAIT`, `MOVE` and a copied element put in front of the script is no reset. -/
theorem hostStep_noReset {s : State} (h : HostStep) (hr : s.NoReset) : (hostStep s h).NoReset := by
  intro b
  cases h with
  | access a =>
    cases a with
    | read => exact hr b
    | write sp i v =>
      obtain ⟨-, -, -, -, -, -, -, hscript, -⟩ := hostWrite_frame s sp i v
      rw [hostStep, hostAccess, hscript]
      exact hr b
  | wait =>
    rw [hostStep]
    split
    · exact hr b
    · simpa using hr b
  | move => simpa [hostStep, moveExpansion] using hr b
  | copyOut j => simpa [hostStep] using hr b
  | reset level =>
    obtain ⟨-, hscript, -⟩ := setReset_frame s level
    rw [hostStep, hscript]
    exact hr b

/-- While the block is busy and no reset is to come, the host's turn leaves both so. -/
theorem hostTurn_busy {s : State} (hb : s.busy = true) (hr : s.NoReset) :
    s.sameBlock (hostTurn s) ∧ (hostTurn s).NoReset := by
  cases hs : s.script with
  | nil =>
    rw [hostTurn_nil hs]
    exact ⟨State.sameBlock.refl s, hr⟩
  | cons h rest =>
    have hmem : ∀ b, HostStep.reset b ∉ h :: rest := fun b => hs ▸ hr b
    have hhead : ∀ b, h ≠ .reset b := fun b e => hmem b (e ▸ List.mem_cons_self)
    have hrest : (s.setScript rest).NoReset := fun b hin => hmem b (List.mem_cons_of_mem h hin)
    rw [hostTurn_cons hs]
    exact ⟨(sameBlock_setScript s rest).trans (hostStep_busy_sameBlock hb hhead),
      hostStep_noReset h hrest⟩

/-! ### The first idle state after a busy one -/

/-- By induction on the run: the engine's turn ends it, the host's turn keeps the block. -/
theorem firstIdle_sameBlock_complete {k : Nat} {s t : State} (hb : s.busy = true) (hr : s.NoReset)
    (hrun : Host.Core.run Sys2Proof.core k s = .next t) (hidle : t.busy = false)
    (hbusy : ∀ j u, j < k → Host.Core.run Sys2Proof.core j s = .next u → u.busy = true) :
    (commit s (engineResult s)).sameBlock t := by
  induction k generalizing s with
  | zero =>
    rw [run_zero] at hrun
    cases hrun
    exact absurd hb (by simp [hidle])
  | succ k ih =>
    rw [run_succ] at hrun
    cases ha : nextAgent s with
    | engine =>
      have hstep : stepState s = commit s.popTurn (engineResult s.popTurn) := by
        simp [stepState, ha, hb]
      cases k with
      | zero =>
        rw [run_zero, hstep] at hrun
        cases hrun
        exact (sameBlock_popTurn s).complete
      | succ k =>
        have : (stepState s).busy = true := hbusy 1 _ (by omega) (run_one s)
        simp [hstep] at this
    | host =>
      have hstep : stepState s = hostTurn s.popTurn := by simp [stepState, ha]
      obtain ⟨hturn, hr'⟩ := hostTurn_busy (s := s.popTurn) hb hr
      rw [← hstep] at hturn hr'
      have hblock : s.sameBlock (stepState s) := (sameBlock_popTurn s).trans hturn
      have hlater : (commit (stepState s) (engineResult (stepState s))).sameBlock t :=
        ih (hblock.busy_eq.trans hb) hr' hrun
          fun j u hj hu => hbusy (j + 1) u (by omega) (by rwa [run_succ])
      exact hblock.complete.trans hlater

/-- Settles O26: until the engine's turn the block stays as it is, and what that turn makes of it is a
function of the block. -/
theorem outcomeIndependentOfInterleaving : Obligations.OutcomeIndependentOfInterleaving := by
  unfold Obligations.OutcomeIndependentOfInterleaving
  intro s t e k hb hr he hrun hidle hbusy
  have hcommit : e = commit s (engineResult s) := by
    rw [engineTurn_eq, if_pos hb] at he
    injection he with he
    exact he.symm
  rw [hcommit]
  exact firstIdle_sameBlock_complete hb hr hrun hidle hbusy

/-! ### The outcome of a command -/

/-- A command's result depends on the parameters, `IN_LEN` and the argument's elements only. -/
theorem resultOf_congr (i : Instr) {s u : State} (hcfg : s.cfg = u.cfg) (hlen : s.inLen = u.inLen)
    (helem : ∀ k, k < s.inLen → s.inElem k = u.inElem k) : resultOf i s = resultOf i u := by
  have harg : s.argument = u.argument := argument_congr hlen helem
  cases i <;> simp only [resultOf, checkLength, hcfg, hlen, harg]

/-- What a commit leaves for the host to find is a function of the result. -/
theorem commit_outcome_eq (s u : State) (r : OpResult) :
    (commit s r).status = (commit u r).status ∧ (commit s r).outLen = (commit u r).outLen ∧
      (commit s r).errPos = (commit u r).errPos ∧ (commit s r).errVal = (commit u r).errVal ∧
      ∀ j, j < (commit s r).outLen → (commit s r).outElem j = (commit u r).outElem j := by
  cases r with
  | ok out =>
    refine ⟨rfl, rfl, rfl, rfl, fun j (hj : j < out.length) => ?_⟩
    rw [outElem_commit_ok s out hj, outElem_commit_ok u out hj]
  | fail err sub pos val => exact ⟨rfl, rfl, rfl, rfl, fun j hj => absurd hj (Nat.not_lt_zero j)⟩

/-- Settles O32: both commands commit one result. -/
theorem outcomeIndependentOfHistory : Obligations.OutcomeIndependentOfHistory := by
  unfold Obligations.OutcomeIndependentOfHistory
  intro i s u hcfg hlen helem
  have hresult : resultOf i s = resultOf i u := resultOf_congr i hcfg hlen helem
  refine ⟨_, _, exec_eq_commit i s, exec_eq_commit i u, ?_⟩
  rw [hresult]
  exact commit_outcome_eq s u _

end Sys2Proof.Machine
end

section
/-! The invariant of the block (10_state.md R24 to R31, R46, R50): it holds after reset, and every turn of
either agent keeps it. -/

namespace Sys2Proof.Machine

/-! ### What a configuration's sizes give -/

theorem inCap_le_outCap (c : Config) : c.inCap ≤ c.outCap := by
  unfold Params.outCap
  omega

/-- An input position fits a position register (00_scope.md R7). -/
theorem inCap_lt_two_pow_lenW (c : Config) : c.inCap < 2 ^ c.lenW := by
  obtain ⟨-, -, hlen, -⟩ := config_facts c
  exact (inCap_le_outCap c).trans_lt hlen

/-- A byte fits an input element (00_scope.md R5). -/
theorem byte_lt_two_pow_cuW (c : Config) (b : Byte) : b.toNat < 2 ^ c.cuW := by
  obtain ⟨hcu, -⟩ := config_facts c
  have hpow : 2 ^ 8 ≤ 2 ^ c.cuW := Nat.pow_le_pow_right (by decide) (by omega)
  exact b.isLt.trans_le hpow

/-! ### Outcomes that fit the registers -/

/-- The failures that an operation can record (60_exceptions.md R211, R213). -/
def failureKinds : List (Err × Sub) :=
  [(.invalidCharacter, .len1), (.invalidCharacter, .padlen), (.invalidCharacter, .badchar),
    (.invalidCharacter, .dangling), (.byteRange, .none), (.illegalCommand, .none), (.length, .none)]

/-- The outcome can be committed in a block of configuration `c`: a result fits `OUT_BUF`; a failure is
one that occurs in the configuration's mode, and its record fits the registers. -/
def OpResult.Fits (c : Config) : OpResult → Prop
  | .ok out => out.length ≤ c.outCap
  | .fail err sub pos val =>
    (err, sub) ∈ failureKinds ∧ (c.padStrip = .aligned → sub ≠ .padlen ∧ sub ≠ .dangling) ∧
      pos < 2 ^ c.lenW ∧ val < 2 ^ c.cuW

theorem doneStatus_mem_statusWords {e : Err} {u : Sub} (h : (e, u) ∈ failureKinds) :
    doneStatus e u ∈ statusWords := by
  have all : ∀ k ∈ failureKinds, doneStatus k.1 k.2 ∈ statusWords := by decide
  exact all (e, u) h

theorem failureKinds_code_ne_zero {e : Err} {u : Sub} (h : (e, u) ∈ failureKinds) : e.code ≠ 0 := by
  have all : ∀ k ∈ failureKinds, k.1.code ≠ 0 := by decide
  exact all (e, u) h

theorem doneStatus_ne_padlen {e : Err} {u : Sub} (h : u ≠ .padlen) : doneStatus e u ≠ 0x46 := by
  revert h
  cases e <;> cases u <;> decide

theorem doneStatus_ne_dangling {e : Err} {u : Sub} (h : u ≠ .dangling) : doneStatus e u ≠ 0x86 := by
  revert h
  cases e <;> cases u <;> decide

/-- A completed operation's status is not that of reset. -/
theorem doneStatus_ne_zero (e : Err) (u : Sub) : doneStatus e u ≠ 0x00 := by
  cases e <;> cases u <;> decide

/-! ### The codec's outcomes fit -/

section codec

variable {c : Config} {a : List Nat}

/-- An element of the argument with its index fits the failure record. -/
theorem mem_zipIdx_fits (hlen : a.length ≤ c.inCap) (hval : ∀ u ∈ a, u < 2 ^ c.cuW) {x : Nat × Nat}
    (hx : x ∈ a.zipIdx) : x.2 < 2 ^ c.lenW ∧ x.1 < 2 ^ c.cuW := by
  rw [List.mem_zipIdx_iff_getElem?] at hx
  obtain ⟨hidx, -⟩ := List.getElem?_eq_some_iff.mp hx
  exact ⟨(hidx.trans_le hlen).trans (inCap_lt_two_pow_lenW c), hval _ (List.mem_of_getElem? hx)⟩

/-- 43_encoder.md R181, R186. -/
theorem b64Encode_fits (hlen : a.length ≤ c.inCap) (hval : ∀ u ∈ a, u < 2 ^ c.cuW) :
    (b64Encode c a).Fits c := by
  unfold b64Encode
  cases hwide : firstWide a with
  | none =>
    simp only [OpResult.Fits, encodeBytes_length, List.length_map, Params.outCap]
    omega
  | some x =>
    obtain ⟨hpos, hv⟩ := mem_zipIdx_fits hlen hval (List.mem_of_find?_eq_some hwide)
    exact ⟨by decide, fun _ => by decide, hpos, hv⟩

/-- In `ALIGNED` mode the core of a sequence that passed stage 2 passes the length tests of stages 3
and 5 (42_decoder.md R153). -/
theorem aligned_core_length (s : List Nat) (h : s.length % 4 ≠ 1) :
    (s.length - padsRemoved .aligned s) % 4 ≠ 1 := by
  have hle := padsRemoved_le .aligned s
  by_cases h4 : s.length % 4 = 0
  · omega
  · simpa [padsRemoved, h4] using h

/-- Stages 4 and 5. -/
theorem decodeCore_fits {core : List (Nat × Nat)} (hlen : core.length ≤ c.inCap)
    (hmem : ∀ x ∈ core, x.2 < 2 ^ c.lenW ∧ x.1 < 2 ^ c.cuW)
    (halign : c.padStrip = .aligned → core.length % 4 ≠ 1) : (decodeCore c core).Fits c := by
  unfold decodeCore
  cases hbad : firstBad c core with
  | some x =>
    obtain ⟨hpos, hv⟩ := hmem x (List.mem_of_find?_eq_some hbad)
    exact ⟨by decide, fun _ => by decide, hpos, hv⟩
  | none =>
    simp only
    split
    · next hdangling =>
      exact ⟨by decide, fun ha => absurd hdangling (halign ha),
        hlen.trans_lt (inCap_lt_two_pow_lenW c), Nat.two_pow_pos _⟩
    · have hsyms : (core.filterMap fun x => decLut c x.1).length ≤ core.length :=
        List.length_filterMap_le _ _
      have hcap := inCap_le_outCap c
      simp only [OpResult.Fits, unpackAll_length]
      omega

/-- 42_decoder.md R149, R153. -/
theorem b64Decode_fits (hlen : a.length ≤ c.inCap) (hval : ∀ u ∈ a, u < 2 ^ c.cuW) :
    (b64Decode c a).Fits c := by
  have hfilter : (filterWs a).length ≤ c.inCap := by
    have : (filterWs a).length ≤ a.zipIdx.length := List.length_filter_le _ _
    rw [List.length_zipIdx] at this
    omega
  have hpos {n : Nat} (h : n ≤ (filterWs a).length) : n < 2 ^ c.lenW :=
    (h.trans hfilter).trans_lt (inCap_lt_two_pow_lenW c)
  unfold b64Decode
  split
  · exact ⟨by decide, fun _ => by decide, hpos le_rfl, Nat.two_pow_pos _⟩
  · next hlen1 =>
    have halign : c.padStrip = .aligned →
        ((filterWs a).length - padsRemoved c.padStrip (normalizeWs a)) % 4 ≠ 1 := by
      intro ha
      rw [filterWs_length] at hlen1 ⊢
      rw [ha]
      exact aligned_core_length _ hlen1
    unfold decodeStripped
    split
    · next hpadlen =>
      exact ⟨by decide, fun ha => absurd hpadlen.2 (halign ha), hpos (Nat.sub_le _ _),
        Nat.two_pow_pos _⟩
    · refine decodeCore_fits ((List.length_take_le' _ _).trans hfilter) (fun x hx => ?_) ?_
      · exact mem_zipIdx_fits hlen hval (List.mem_filter.mp (List.mem_of_mem_take hx)).1
      · rwa [List.length_take, Nat.min_eq_left (Nat.sub_le _ _)]

end codec

/-! ### The engine's outcome fits -/

section invariant

variable {s t : State}

/-- Every input element has `CU_W` bits, written or not. -/
theorem State.Inv.inElem_lt (hi : s.Inv) (i : Nat) : s.inElem i < 2 ^ s.cfg.cuW := by
  unfold State.inElem
  cases hr : Memory.read s.inBuf i with
  | none => exact Nat.mod_lt _ (Nat.two_pow_pos _)
  | some v => exact (hi.inBufRange _ (Memory.read_mem hr)).2

theorem State.Inv.argument_lt (hi : s.Inv) : ∀ u ∈ s.argument, u < 2 ^ s.cfg.cuW := by
  intro u hu
  obtain ⟨i, -, rfl⟩ := List.mem_map.mp hu
  exact hi.inElem_lt i

/-- The codec's bounds need a length within the buffer, which `LengthError` sees to (60_exceptions.md
R216). -/
theorem State.Inv.checkLength_fits (hi : s.Inv) {r : OpResult}
    (hr : s.argument.length ≤ s.cfg.inCap → r.Fits s.cfg) : (checkLength s r).Fits s.cfg := by
  unfold checkLength
  split
  · exact ⟨by decide, fun _ => by decide, hi.inLenFits, Nat.two_pow_pos _⟩
  · next hlen => exact hr (by simpa using hlen)

theorem State.Inv.resultOf_fits (hi : s.Inv) (i : Instr) : (resultOf i s).Fits s.cfg := by
  cases i with
  | enc => exact hi.checkLength_fits fun hlen => b64Encode_fits hlen hi.argument_lt
  | dec => exact hi.checkLength_fits fun hlen => b64Decode_fits hlen hi.argument_lt

theorem State.Inv.engineResult_fits (hi : s.Inv) : (engineResult s).Fits s.cfg := by
  unfold engineResult
  split
  · exact hi.resultOf_fits _
  · exact ⟨by decide, fun _ => by decide, Nat.two_pow_pos _, byte_lt_two_pow_cuW _ _⟩

/-! ### What the invariant says of a busy block -/

/-- `STATUS` is `0x01` while an operation is in progress (10_state.md R24). -/
theorem State.Inv.status_of_busy (hi : s.Inv) (hb : s.busy = true) : s.status = 0x01 := by
  have all : ∀ w ∈ statusWords, w.getLsbD 0 = true → w = 0x01 := by decide
  exact all _ hi.statusShape hb

/-- A block held in reset is idle. -/
theorem State.Inv.resetIn_of_busy (hi : s.Inv) (hb : s.busy = true) : s.resetIn = false := by
  cases hr : s.resetIn with
  | false => rfl
  | true =>
    obtain ⟨hstatus, -⟩ := hi.resetHeld hr
    exact absurd (hstatus.symm.trans (hi.status_of_busy hb)) (by decide)

/-! ### Each operation keeps the invariant -/

/-- Every element of a whole result is written (10_state.md R46). -/
theorem Memory.isSome_read_writeAll (m : Memory Byte) {out : List Byte} {j : Nat}
    (hj : j < out.length) : (Memory.read (Memory.writeAll m 0 out) j).isSome = true := by
  have hread := Memory.read_writeAll_inside out m 0 j hj
  rw [Nat.zero_add] at hread
  simp [hread, hj]

/-- A state with the registers and buffers of reset meets the invariant. -/
theorem State.inv_of_cleared (hstatus : s.status = 0x00) (hin : s.inLen = 0) (hout : s.outLen = 0)
    (hpos : s.errPos = 0) (hval : s.errVal = 0) (hinBuf : s.inBuf = []) (houtBuf : s.outBuf = []) :
    s.Inv where
  statusShape := by rw [hstatus]; decide
  alignedShape := fun _ => by rw [hstatus]; decide
  inLenFits := by rw [hin]; exact Nat.two_pow_pos _
  outLenFits := by rw [hout]; exact Nat.zero_le _
  errPosFits := by rw [hpos]; exact Nat.two_pow_pos _
  errValFits := by rw [hval]; exact Nat.two_pow_pos _
  inBufForm := by rw [hinBuf]; exact List.Pairwise.nil
  inBufRange := by simp [hinBuf]
  outBufForm := by rw [houtBuf]; exact List.Pairwise.nil
  outBufRange := by simp [houtBuf]
  okRecord := fun _ _ => ⟨hpos, hval⟩
  failLength := fun _ _ => hout
  resultWritten := by simp [hout]
  resetRecord := fun _ => ⟨hout, hpos, hval⟩
  resetHeld := fun _ => ⟨hstatus, hin, hinBuf, houtBuf⟩

/-- The invariant is about the block, not about the HOST agent. -/
theorem State.Inv.of_sameBlock (hi : s.Inv) (h : s.sameBlock t) : t.Inv := by
  rw [State.sameBlock_iff.mp h]
  exact { hi with }

/-- The commit of a success: `OUT_BUF[0..OUT_LEN)` is written, the record is clear. -/
theorem State.Inv.commitOk (hi : s.Inv) (hb : s.busy = true) {out : List Byte}
    (hout : out.length ≤ s.cfg.outCap) : (commitOk s out).Inv :=
  { hi with
    statusShape := show doneStatus .ok .none ∈ statusWords by decide
    alignedShape := fun _ => ⟨doneStatus_ne_padlen (by decide), doneStatus_ne_dangling (by decide)⟩
    outLenFits := hout
    errPosFits := Nat.two_pow_pos _
    errValFits := Nat.two_pow_pos _
    outBufForm := Memory.writeAll_wf _ _ _ hi.outBufForm
    outBufRange := Memory.writeAll_index_lt _ _ _ _ hi.outBufRange (by simpa using hout)
    okRecord := fun _ _ => ⟨rfl, rfl⟩
    failLength := fun _ herr => absurd (doneStatus_err .ok .none) herr
    resultWritten := fun _ _ hj => Memory.isSome_read_writeAll s.outBuf hj
    resetRecord := fun h => absurd h (doneStatus_ne_zero _ _)
    resetHeld := fun h => by simp [hi.resetIn_of_busy hb] at h }

/-- A failure's entry: the record is written, there is no result. -/
theorem State.Inv.commitFail (hi : s.Inv) (hb : s.busy = true) {e : Err} {u : Sub} {p v : Nat}
    (hfits : (OpResult.fail e u p v).Fits s.cfg) : (commitFail s e u p v).Inv := by
  obtain ⟨hkind, halign, hpos, hval⟩ := hfits
  exact
    { hi with
      statusShape := doneStatus_mem_statusWords hkind
      alignedShape := fun ha =>
        ⟨doneStatus_ne_padlen (halign ha).1, doneStatus_ne_dangling (halign ha).2⟩
      outLenFits := Nat.zero_le _
      errPosFits := hpos
      errValFits := hval
      okRecord := fun _ herr =>
        absurd ((doneStatus_err e u).symm.trans herr) (failureKinds_code_ne_zero hkind)
      failLength := fun _ _ => rfl
      resultWritten := fun _ j hj => absurd hj (Nat.not_lt_zero j)
      resetRecord := fun h => absurd h (doneStatus_ne_zero _ _)
      resetHeld := fun h => by simp [hi.resetIn_of_busy hb] at h }

theorem State.Inv.commit (hi : s.Inv) (hb : s.busy = true) {r : OpResult} (hfits : r.Fits s.cfg) :
    (commit s r).Inv := by
  cases r with
  | ok out => exact hi.commitOk hb hfits
  | fail e u p v => exact hi.commitFail hb hfits

/-- Acceptance leaves the old result and record in place: they are no longer claimed (10_state.md
R41). -/
theorem State.Inv.accept (hi : s.Inv) (hr : s.resetIn = false) (c : Byte) : (accept s c).Inv :=
  have hdone : (Machine.accept s c).done = true → False := by simp
  { hi with
    statusShape := show busyStatus ∈ statusWords by decide
    alignedShape := fun _ => show busyStatus ≠ 0x46 ∧ busyStatus ≠ 0x86 by decide
    okRecord := fun h => (hdone h).elim
    failLength := fun h => (hdone h).elim
    resultWritten := fun h => (hdone h).elim
    resetRecord := fun h => absurd h (show busyStatus ≠ 0x00 by decide)
    resetHeld := fun h => by simp [hr] at h }

theorem State.Inv.hostWrite (hi : s.Inv) (sp : Space) (i v : Nat) : (hostWrite s sp i v).Inv := by
  rcases hostWrite_cases s sp i v with h | ⟨-, hr, -, -, h⟩ | ⟨-, hr, -, -, h⟩ | ⟨-, hr, -, hcap, h⟩
  · rwa [h]
  · rw [h]
    exact hi.accept hr _
  · rw [h]
    exact
      { hi with
        inLenFits := Nat.mod_lt _ (Nat.two_pow_pos _)
        resetHeld := fun h => by simp [hr] at h }
  · rw [h]
    exact
      { hi with
        inBufForm := Memory.write_wf _ _ hi.inBufForm
        inBufRange := Memory.forall_write hi.inBufRange ⟨hcap, Nat.mod_lt _ (Nat.two_pow_pos _)⟩
        resetHeld := fun h => by simp [hr] at h }

theorem State.Inv.setReset (hi : s.Inv) (level : Bool) : (setReset s level).Inv := by
  rcases setReset_cases s level with ⟨-, h⟩ | ⟨-, -, h⟩ | ⟨-, -, h⟩
  · rwa [h]
  · rw [h]
    exact State.inv_of_cleared rfl rfl rfl rfl rfl rfl rfl
  · rw [h]
    exact { hi with resetHeld := fun h => by simp at h }

/-- A read, and what `WAIT`, `MOVE` and a copied element put in front of the script, are the HOST
agent's own. -/
theorem State.Inv.hostStep (hi : s.Inv) (h : HostStep) : (hostStep s h).Inv := by
  cases h with
  | access a =>
    cases a with
    | read sp i => exact hi.of_sameBlock (State.sameBlock.refl s)
    | write sp i v => exact hi.hostWrite sp i v
  | wait =>
    rw [Machine.hostStep]
    split <;> exact hi.of_sameBlock (State.sameBlock.refl s)
  | move => exact hi.of_sameBlock (State.sameBlock.refl s)
  | copyOut j => exact hi.of_sameBlock (State.sameBlock.refl s)
  | reset level => exact hi.setReset level

theorem State.Inv.hostTurn (hi : s.Inv) : (hostTurn s).Inv := by
  cases hs : s.script with
  | nil => rwa [hostTurn_nil hs]
  | cons h rest =>
    rw [hostTurn_cons hs]
    exact (hi.of_sameBlock (sameBlock_setScript s rest)).hostStep h

/-- One turn of either agent. -/
theorem State.Inv.stepState (hi : s.Inv) : (stepState s).Inv := by
  have hpop : s.popTurn.Inv := hi.of_sameBlock (sameBlock_popTurn s)
  unfold Machine.stepState
  split
  · split
    · next hb => exact hpop.commit hb hpop.engineResult_fits
    · exact hpop
  · exact hpop.hostTurn

end invariant

/-- Settles O21: a step is a turn, and each operation a turn can make keeps the invariant. -/
theorem stepKeepsBlockInvariant : Obligations.StepKeepsBlockInvariant := by
  unfold Obligations.StepKeepsBlockInvariant
  intro s t hi hstep
  rw [step_eq] at hstep
  cases hstep
  exact hi.stepState

/-- Settles O22: the registers and buffers are cleared. -/
theorem resetMeetsBlockInvariant : Obligations.ResetMeetsBlockInvariant := by
  unfold Obligations.ResetMeetsBlockInvariant
  exact fun c seed => State.inv_of_cleared rfl rfl rfl rfl rfl rfl rfl

end Sys2Proof.Machine
end

section
/-! The host port (10_state.md R22 to R30, R41 to R44): what an access returns and what it changes. -/

namespace Sys2Proof.Machine

/-! ### The port's two functions -/

/-- Only `CMD` and `IN_LEN` are writable (10_state.md R29, R44). -/
theorem hostWrite_reg_ignored (s : State) {i : Nat} (hcmd : i ≠ 0) (hlen : i ≠ 2) (v : Nat) :
    hostWrite s .reg i v = s := by
  rcases hostWrite_cases s .reg i v with h | ⟨-, -, -, h0, -⟩ | ⟨-, -, -, h2, -⟩ | ⟨-, -, hsp, -⟩
  · exact h
  · exact absurd h0 hcmd
  · exact absurd h2 hlen
  · cases hsp

theorem hostWrite_out_ignored (s : State) (i v : Nat) : hostWrite s .out i v = s := by
  rcases hostWrite_cases s .out i v with h | ⟨-, -, hsp, -⟩ | ⟨-, -, hsp, -⟩ | ⟨-, -, hsp, -⟩
  · exact h
  all_goals cases hsp

/-- `IN_LEN` is the only register that depends on `IN_LEN`. -/
theorem regRead_of_ne_inLen (s : State) (n : Nat) {j : Nat} (h : j ≠ 2) :
    regRead { s with inLen := n } j = regRead s j := by
  match j with
  | 2 => exact absurd rfl h
  | 0 | 1 | 3 | 4 | 5 | _ + 6 => rfl

/-- Settles O11: by evaluation of the read; a busy block's `STATUS` is the invariant's. -/
theorem hostReadsReturnTheElement : Obligations.HostReadsReturnTheElement := by
  unfold Obligations.HostReadsReturnTheElement
  intro s
  refine ⟨rfl, rfl, rfl, rfl, rfl, rfl, fun i hi => if_pos hi, fun i hi => if_pos hi, fun hi hb => ?_⟩
  exact congrArg BitVec.toNat (hi.status_of_busy hb)

/-- Settles O12: an index from 6 on is neither read as a register nor writable. -/
theorem unmappedRegistersAreHarmless : Obligations.UnmappedRegistersAreHarmless := by
  unfold Obligations.UnmappedRegistersAreHarmless
  intro s i v hi
  refine ⟨?_, hostWrite_reg_ignored s (by omega) (by omega) v⟩
  obtain ⟨k, rfl⟩ := Nat.exists_eq_add_of_le' hi
  rfl

/-- Settles O13: none of these is a writable target. -/
theorem readOnlyWritesAreIgnored : Obligations.ReadOnlyWritesAreIgnored := by
  unfold Obligations.ReadOnlyWritesAreIgnored
  intro s v
  have register {i : Nat} (hcmd : i ≠ 0) (hlen : i ≠ 2) := hostWrite_reg_ignored s hcmd hlen v
  exact ⟨register (by decide) (by decide), register (by decide) (by decide),
    register (by decide) (by decide), register (by decide) (by decide),
    fun i => hostWrite_out_ignored s i v, rfl⟩

/-- A write to an input element in range of an idle block that is not held in reset. -/
theorem hostWrite_inp {s : State} (hb : s.busy = false) (hr : s.resetIn = false) {i : Nat}
    (hi : i < s.cfg.inCap) (v : Nat) :
    hostWrite s .inp i v = { s with inBuf := Memory.write s.inBuf i (v % 2 ^ s.cfg.cuW) } :=
  (hostWrite_idle hb hr .inp i v).trans (if_pos hi)

/-- Settles O15: an element write changes `IN_BUF` at one index, a length write changes `IN_LEN`. -/
theorem hostWriteStoresOneElement : Obligations.HostWriteStoresOneElement := by
  unfold Obligations.HostWriteStoresOneElement
  intro s i v hb hr
  have hlenWrite : hostWrite s .reg 2 v = { s with inLen := v % 2 ^ s.cfg.lenW } :=
    hostWrite_idle hb hr .reg 2 v
  rw [hlenWrite]
  refine ⟨fun hi => ?_, rfl, fun j hj => regRead_of_ne_inLen s _ hj, fun j => rfl, fun j => rfl⟩
  rw [hostWrite_inp hb hr hi]
  refine ⟨?_, fun j hj => ?_, fun j => rfl, fun j => rfl⟩
  · simp [hostRead, State.inElem, hi]
  · simp only [hostRead, State.inElem, Memory.read_write_other _ _ hj]

/-! ### A host step that is one access -/

/-- Settles O8: the write reaches the port, which accepts the word. -/
theorem commandWriteIsAccepted : Obligations.CommandWriteIsAccepted := by
  unfold Obligations.CommandWriteIsAccepted
  intro s c rest ha hb hr hs
  have haccept : hostWrite (s.popTurn.setScript rest) .reg 0 c.toNat =
      accept (s.popTurn.setScript rest) (BitVec.ofNat 8 c.toNat) :=
    hostWrite_idle (s := s.popTurn.setScript rest) hb hr .reg 0 c.toNat
  rw [step_host ha hs, hostStep, hostAccess, haccept, BitVec.ofNat_toNat, BitVec.setWidth_eq]
  rfl

/-- Settles O9: the write reaches the port, which drops it. -/
theorem busyWritesAreIgnored : Obligations.BusyWritesAreIgnored := by
  unfold Obligations.BusyWritesAreIgnored
  intro s sp i v rest ha hb hs
  have hbusy : (s.popTurn.setScript rest).busy = true := hb
  rw [step_host ha hs, hostStep, hostAccess, hostWrite_busy hbusy]
  rfl

/-- The value read does not depend on the HOST agent. -/
theorem State.sameBlock.hostRead_eq {s t : State} (h : s.sameBlock t) (sp : Space) (i : Nat) :
    hostRead t sp i = hostRead s sp i := by
  rw [State.sameBlock_iff.mp h]
  cases sp <;> rfl

/-- Settles O10: the host's step is the recording of the value read. -/
theorem hostReadsChangeNothing : Obligations.HostReadsChangeNothing := by
  unfold Obligations.HostReadsChangeNothing
  intro s sp i rest ha hs
  have hread : hostRead (s.popTurn.setScript rest) sp i = hostRead s sp i :=
    (State.sameBlock.refl s : s.sameBlock (s.popTurn.setScript rest)).hostRead_eq sp i
  rw [step_host ha hs, hostStep, hostAccess, recordRead, hread]
  rfl

/-- Settles O17: every register is 0 in `State.resetWith`. -/
theorem resetClearsRegisters : Obligations.ResetClearsRegisters := by
  unfold Obligations.ResetClearsRegisters
  have hidle (c : Config) (seed : Nat) : (State.resetWith c seed).busy = false :=
    show (0x00 : Byte).getLsbD 0 = false by decide
  have hdone (c : Config) (seed : Nat) : (State.resetWith c seed).doneO = false :=
    show (0x00 : Byte).getLsbD 1 = false by decide
  exact ⟨rfl, fun c seed => ⟨rfl, rfl, rfl, rfl, rfl, rfl, hidle c seed, hdone c seed, rfl⟩⟩

end Sys2Proof.Machine
end

section
/-! The engine's turn and the commands (10_state.md R32, R40, R41, R45, R46). -/

namespace Sys2Proof.Machine

/-! ### The engine's turn -/

/-- Settles O4: the engine's turn of a busy block is `complete`, which runs the decoded latch. -/
theorem stepRunsLatchedCommand : Obligations.StepRunsLatchedCommand := by
  unfold Obligations.StepRunsLatchedCommand
  intro s i ha hb hdecode
  have hresult : engineResult s.popTurn = resultOf i s.popTurn := by
    simp [engineResult, fetchWord, hdecode]
  rw [step_engine ha hb, exec_eq_commit, hresult]

theorem decode_encode (i : Instr) : decode (encode i) = .ok i := by
  cases i <;> decide

/-- A word of all 8 table bits is the word itself. -/
theorem tableByte_toNat (w : Byte) : tableByte 8 w.toNat = w := by
  rw [tableByte, Nat.mod_eq_of_lt w.isLt, BitVec.ofNat_toNat, BitVec.setWidth_eq]

/-- Settles O5: placing the word is acceptance with the engine's turn in front, and that turn runs the
latch. -/
theorem fetchWordRunsCommand : Obligations.FetchWordRunsCommand := by
  unfold Obligations.FetchWordRunsCommand
  intro s i
  refine ⟨?_, ?_⟩
  · rw [State.withFetchWord, tableByte_toNat]
    have hbusy : (s.latch (encode i)).busy = true := accept_busy (releaseReset s) (encode i)
    exact stepRunsLatchedCommand (s.latch (encode i)) i rfl hbusy (decode_encode i)
  · rw [decodeTableWord, tableByte_toNat, decode_encode]
    rfl

/-- Settles O7: the engine's turn looks at `BUSY` first. -/
theorem idleEngineDoesNothing : Obligations.IdleEngineDoesNothing := by
  unfold Obligations.IdleEngineDoesNothing
  intro s ha hb
  have hstate : stepState s = s.popTurn := by simp [stepState, ha, hb]
  rw [step_eq, hstate]

/-! ### The configuration is fixed -/

theorem hostStep_cfg (s : State) (h : HostStep) : (hostStep s h).cfg = s.cfg := by
  cases h with
  | access a =>
    cases a with
    | read => rfl
    | write sp i v => exact (hostWrite_frame s sp i v).1
  | wait =>
    rw [hostStep]
    split <;> rfl
  | move => rfl
  | copyOut => rfl
  | reset level => exact (setReset_frame s level).1

theorem hostTurn_cfg (s : State) : (hostTurn s).cfg = s.cfg := by
  cases hs : s.script with
  | nil => rw [hostTurn_nil hs]
  | cons h rest => rw [hostTurn_cons hs, hostStep_cfg, setScript_cfg]

theorem stepState_cfg (s : State) : (stepState s).cfg = s.cfg := by
  unfold stepState
  split
  · split
    · exact (commit_frame _ _).1
    · rfl
  · exact hostTurn_cfg _

/-- Settles O24: neither a commit nor a host step writes the configuration. -/
theorem noStepChangesConfiguration : Obligations.NoStepChangesConfiguration := by
  unfold Obligations.NoStepChangesConfiguration
  intro s t hstep
  rw [step_eq] at hstep
  cases hstep
  exact stepState_cfg s

/-! ### The frame of a command -/

/-- Output elements at and beyond `OUT_LEN` are not written. -/
theorem commit_outBuf_beyond (s : State) (r : OpResult) {j : Nat} (hj : (commit s r).outLen ≤ j) :
    Memory.read (commit s r).outBuf j = Memory.read s.outBuf j := by
  cases r with
  | ok out =>
    have hj' : out.length ≤ j := hj
    exact Memory.read_writeAll_outside out s.outBuf 0 j (by omega)
  | fail => rfl

/-- Every output element below `OUT_LEN` is written, whatever the outcome. -/
theorem commit_outBuf_below (s : State) (r : OpResult) {j : Nat} (hj : j < (commit s r).outLen) :
    (Memory.read (commit s r).outBuf j).isSome = true := by
  cases r with
  | ok out => exact Memory.isSome_read_writeAll s.outBuf hj
  | fail => exact absurd hj (Nat.not_lt_zero j)

/-- A failure writes no output element. -/
theorem commit_outBuf_of_failure (s : State) (r : OpResult) (h : (commit s r).err ≠ 0) :
    (commit s r).outBuf = s.outBuf := by
  cases r with
  | ok out => exact absurd (commit_err s (.ok out)) h
  | fail => rfl

/-- Settles O28: a command commits its result, and a commit writes `OUT_BUF[0..OUT_LEN)` and the
registers of the outcome. -/
theorem commandFrame : Obligations.CommandFrame := by
  unfold Obligations.CommandFrame
  intro i s
  refine ⟨_, exec_eq_commit i s, ?_⟩
  generalize resultOf i s = r
  obtain ⟨hcfg, hinLen, hinBuf, hlatch, hreset, hseed, hhost⟩ := commit_frame s r
  refine ⟨hcfg, hinLen, hinBuf, hlatch, hreset, hseed, hhost, fun j => ?_,
    fun j hj => commit_outBuf_beyond s r hj, fun j hj => ?_,
    fun _ j hj => commit_outBuf_below s r hj, commit_outBuf_of_failure s r⟩
  · simp only [hostRead, State.inElem, hcfg, hinBuf, hseed]
  · simp only [hostRead, State.outElem, hcfg, hseed, commit_outBuf_beyond s r hj]

end Sys2Proof.Machine
end

section
/-! The memory map (20_memory.md R65, R68): accesses out of range, steps that always answer, and a
command accepted again on an unchanged argument. -/

namespace Sys2Proof.Machine

/-! ### A repeated command -/

/-- A completed command leaves the argument as it was, and acceptance does too, so the next run of the
same command computes the same result. -/
theorem resultOf_accept_commit (i : Instr) (s : State) (r : OpResult) (c : Byte) :
    resultOf i (accept (commit s r) c) = resultOf i s := by
  obtain ⟨hcfg, hlen, hinBuf, -, -, hseed, -⟩ := commit_frame s r
  refine resultOf_congr i hcfg hlen fun k _ => ?_
  simp only [State.inElem, accept_inBuf, accept_freeSeed, accept_cfg, hinBuf, hseed, hcfg]

/-- Output elements at and beyond `OUT_LEN` keep their value. -/
theorem commit_outElem_beyond (s : State) (r : OpResult) {j : Nat} (hj : (commit s r).outLen ≤ j) :
    (commit s r).outElem j = s.outElem j := by
  obtain ⟨-, -, -, -, -, hseed, -⟩ := commit_frame s r
  simp only [State.outElem, commit_outBuf_beyond s r hj, hseed]

/-- Settles O34: the second run commits the first run's result. Below `OUT_LEN` both runs write it; at
and beyond `OUT_LEN` the second run writes nothing. -/
theorem repeatedCommandRepeatsOutcome : Obligations.RepeatedCommandRepeatsOutcome := by
  unfold Obligations.RepeatedCommandRepeatsOutcome
  intro i s
  refine ⟨_, _, exec_eq_commit i s, exec_eq_commit i _, ?_⟩
  rw [resultOf_accept_commit]
  generalize resultOf i s = r
  obtain ⟨hstatus, hlen, hpos, hval, hwritten⟩ :=
    commit_outcome_eq (accept (commit s r) (encode i)) s r
  refine ⟨hstatus, hlen, hpos, hval, fun j => ?_⟩
  rcases Nat.lt_or_ge j (commit (accept (commit s r) (encode i)) r).outLen with hj | hj
  · exact hwritten j hj
  · exact commit_outElem_beyond _ r hj

/-! ### Accesses and steps -/

/-- A write beyond the input buffer reaches no element. -/
theorem hostWrite_inp_ignored (s : State) {i : Nat} (hi : s.cfg.inCap ≤ i) (v : Nat) :
    hostWrite s .inp i v = s := by
  rcases hostWrite_cases s .inp i v with h | ⟨-, -, hsp, -⟩ | ⟨-, -, hsp, -⟩ | ⟨-, -, -, hlt, -⟩
  · exact h
  · cases hsp
  · cases hsp
  · exact absurd hlt (Nat.not_lt.mpr hi)

/-- Settles O14: the port compares the index with the buffer's capacity before any element. -/
theorem outOfRangeAccessesAreHarmless : Obligations.OutOfRangeAccessesAreHarmless := by
  unfold Obligations.OutOfRangeAccessesAreHarmless
  intro s i v
  exact ⟨fun hi => ⟨if_neg (Nat.not_lt.mpr hi), hostWrite_inp_ignored s hi v⟩,
    fun hi => if_neg (Nat.not_lt.mpr hi)⟩

/-- Settles O23: the next state is `stepState`. -/
theorem everyStepAnswersNext : Obligations.EveryStepAnswersNext := by
  unfold Obligations.EveryStepAnswersNext
  exact fun s => ⟨stepState s, step_eq s⟩

end Sys2Proof.Machine
end

section
/-! The command word (30_encoding.md R90 to R93): what the decoder answers, in one formula. -/

namespace Sys2Proof

/-- The mask of every row of the opcode table keeps the whole word. -/
theorem and_opcodeMask (w : Byte) : w &&& 0xFF = w :=
  BitVec.and_allOnes

/-- The decoder's three answers (30_encoding.md R91, R93). -/
theorem decode_eq (w : Byte) :
    decode w = if w = 0x01 then .ok .enc else if w = 0x02 then .ok .dec
      else .error (.illegalCommand w) := by
  simp only [decode, opcodeTable, List.find?_cons, OpcodeRow.isMatch, and_opcodeMask]
  by_cases henc : w = 0x01
  · rw [if_pos henc, beq_iff_eq.mpr henc]
  · by_cases hdec : w = 0x02
    · rw [if_neg henc, if_pos hdec, beq_eq_false_iff_ne.mpr henc, beq_iff_eq.mpr hdec]
    · rw [if_neg henc, if_neg hdec, beq_eq_false_iff_ne.mpr henc, beq_eq_false_iff_ne.mpr hdec]
      rfl

/-- A command's encoding is the only word that decodes to it. -/
theorem decode_eq_ok_iff (w : Byte) (i : Instr) : decode w = .ok i ↔ w = encode i := by
  constructor
  · intro h
    rw [decode_eq] at h
    split at h
    · next henc =>
      cases h
      exact henc
    · split at h
      · next hdec =>
        cases h
        exact hdec
      · cases h
  · rintro rfl
    exact Machine.decode_encode i

/-- Settles O1: the masked word is the word, and each command has one word. -/
theorem commandWordsDecodeByTable : Obligations.CommandWordsDecodeByTable := by
  unfold Obligations.CommandWordsDecodeByTable
  simp only [and_opcodeMask]
  refine ⟨fun w => decode_eq_ok_iff w .enc, fun w => decode_eq_ok_iff w .dec, fun w henc hdec => ?_⟩
  rw [decode_eq, if_neg henc, if_neg hdec]

/-- Settles O2: both directions of `decode_eq_ok_iff`. -/
theorem decodeAndEncodeAgree : Obligations.DecodeAndEncodeAgree := by
  unfold Obligations.DecodeAndEncodeAgree
  exact ⟨fun i _ => (decode_eq_ok_iff _ i).mpr rfl, fun w i h => ((decode_eq_ok_iff w i).mp h).symm⟩

/-- Settles O3: the table's numbering and the decoder, evaluated at four words. -/
theorem writtenOutCommandWordsDecode : Obligations.WrittenOutCommandWordsDecode := by
  unfold Obligations.WrittenOutCommandWordsDecode
  decide

end Sys2Proof
end

section
/-! Host programs (30_encoding.md R97, R98): `LOAD`, a command with its `WAIT`, and `MOVE`, from an idle
block that is not held in reset and under any turns fixed beforehand. Each is a run that ends in a
known state but for the turns left over and the host's readings. -/

namespace Sys2Proof.Machine

/-! ### Runs up to the turns and the readings -/

/-- The turns still fixed and the host's readings become these. -/
def State.withTurnsSeen (s : State) (T : List Agent) (l : List Nat) : State :=
  { s with turns := T, seen := l }

@[simp] theorem withTurnsSeen_cfg (s : State) (T : List Agent) (l : List Nat) :
    (s.withTurnsSeen T l).cfg = s.cfg := rfl

/-- `Reaches`, where the turns left over and the host's readings at the end are left open. -/
def RunsTo (s : State) (n : Nat) (t : State) : Prop :=
  ∃ T l, Reaches s n (t.withTurnsSeen T l)

theorem RunsTo.refl (s : State) : RunsTo s 0 s := ⟨s.turns, s.seen, Reaches.refl s⟩

/-- A program goes on from the state reached, whatever turns and readings it has. -/
theorem RunsTo.trans {s t u : State} {m n : Nat} (hst : RunsTo s m t)
    (htu : ∀ T l, RunsTo (t.withTurnsSeen T l) n (u.withTurnsSeen T l)) : RunsTo s (m + n) u := by
  obtain ⟨T, l, hst⟩ := hst
  obtain ⟨T', l', htu⟩ := htu T l
  exact ⟨T', l', hst.trans htu⟩

/-- In an idle block the host's next step comes. -/
theorem runsTo_hostStep {s t : State} {h : HostStep} {rest : List HostStep} (hb : s.busy = false)
    (hs : s.script = h :: rest)
    (ht : ∀ T, ∃ l, hostStep ((s.setScript rest).withTurnsSeen T s.seen) h = t.withTurnsSeen T l) :
    RunsTo s 1 t := by
  obtain ⟨T, hreach⟩ := reaches_hostStep hb hs
  obtain ⟨l, hl⟩ := ht T
  exact ⟨T, l, hl ▸ hreach⟩

theorem commit_withTurnsSeen (s : State) (T : List Agent) (l : List Nat) (r : OpResult) :
    commit (s.withTurnsSeen T l) r = (commit s r).withTurnsSeen T l := by
  cases r <;> rfl

theorem commit_setScript (s : State) (l : List HostStep) (r : OpResult) :
    commit (s.setScript l) r = (commit s r).setScript l := by
  cases r <;> rfl

/-- While the host waits, the engine completes. -/
theorem runsTo_complete {s : State} {rest : List HostStep} (hb : s.busy = true)
    (hd : s.done = false) (hs : s.script = .wait :: rest) :
    RunsTo s 1 (commit s (engineResult s)) := by
  obtain ⟨T, l, hreach⟩ := reaches_complete hb hd hs
  exact ⟨T, l, commit_withTurnsSeen s T l (engineResult s) ▸ hreach⟩

/-! ### One line -/

section lines

variable {s : State} {rest : List HostStep} {i j n v : Nat} {c : Byte}

/-- `WR IN[i], v`. -/
theorem runsTo_wrIn (hb : s.busy = false) (hr : s.resetIn = false)
    (hs : s.script = lineWrIn i v :: rest) (hi : i < s.cfg.inCap) (hv : v < 2 ^ s.cfg.cuW) :
    RunsTo s 1 { s with inBuf := Memory.write s.inBuf i v, script := rest } := by
  refine runsTo_hostStep hb hs fun T => ⟨s.seen, ?_⟩
  have hwrite := hostWrite_inp (s := (s.setScript rest).withTurnsSeen T s.seen) hb hr hi v
  rw [lineWrIn, hostStep, hostAccess, hwrite]
  simp only [withTurnsSeen_cfg, setScript_cfg, Nat.mod_eq_of_lt hv]
  rfl

/-- `WR IN_LEN, n`. -/
theorem runsTo_wrInLen (hb : s.busy = false) (hr : s.resetIn = false)
    (hs : s.script = lineWrInLen n :: rest) (hn : n ≤ s.cfg.inCap) :
    RunsTo s 1 { s with inLen := n, script := rest } := by
  refine runsTo_hostStep hb hs fun T => ⟨s.seen, ?_⟩
  have hwrite := hostWrite_idle (s := (s.setScript rest).withTurnsSeen T s.seen) hb hr .reg 2 n
  have hfits : n < 2 ^ s.cfg.lenW := hn.trans_lt (inCap_lt_two_pow_lenW s.cfg)
  rw [lineWrInLen, hostStep, hostAccess, hwrite]
  simp only [regWrite, withTurnsSeen_cfg, setScript_cfg, Nat.mod_eq_of_lt hfits]
  rfl

/-- `CMD c`. -/
theorem runsTo_cmd (hb : s.busy = false) (hr : s.resetIn = false)
    (hs : s.script = lineCmd c :: rest) : RunsTo s 1 ((accept s c).setScript rest) := by
  refine runsTo_hostStep hb hs fun T => ⟨s.seen, ?_⟩
  have hwrite := hostWrite_idle (s := (s.setScript rest).withTurnsSeen T s.seen) hb hr .reg 0 c.toNat
  rw [lineCmd, hostStep, hostAccess, hwrite]
  simp only [regWrite, BitVec.ofNat_toNat, BitVec.setWidth_eq]
  rfl

/-- The last read of `WAIT`. -/
theorem runsTo_wait_done (hb : s.busy = false) (hd : s.done = true) (hs : s.script = .wait :: rest) :
    RunsTo s 1 (s.setScript rest) :=
  runsTo_hostStep hb hs fun _ => ⟨_, if_pos hd⟩

/-- `MOVE` reads `OUT_LEN` and goes on as its expansion. -/
theorem runsTo_move_read (hb : s.busy = false) (hs : s.script = .move :: rest) :
    RunsTo s 1 (s.setScript (moveExpansion s.outLen ++ rest)) :=
  runsTo_hostStep hb hs fun _ => ⟨_, rfl⟩

/-- The two accesses of `MOVE` for one index: a byte is copied, zero-extended. -/
theorem runsTo_copyOut (hb : s.busy = false) (hr : s.resetIn = false)
    (hs : s.script = .copyOut j :: rest) (hj : j < s.cfg.inCap) :
    RunsTo s 2 { s with inBuf := Memory.write s.inBuf j (s.outElem j).toNat, script := rest } := by
  have hvalue : hostRead s .out j = (s.outElem j).toNat :=
    if_pos (hj.trans_le (inCap_le_outCap s.cfg))
  have hread : RunsTo s 1 (s.setScript (lineWrIn j (s.outElem j).toNat :: rest)) :=
    runsTo_hostStep hb hs fun T => ⟨_, by rw [← hvalue]; rfl⟩
  exact hread.trans (n := 1) fun T l => runsTo_wrIn hb hr rfl hj (byte_lt_two_pow_cuW s.cfg _)

end lines

/-! ### The argument and the outcome -/

/-- The argument buffer holds `a` from index 0 on, and `IN_LEN` its length. -/
def State.withArgument (s : State) (a : List Nat) : State :=
  { s with inBuf := Memory.writeAll s.inBuf 0 a, inLen := a.length }

@[simp] theorem argument_withArgument (s : State) (a : List Nat) : (s.withArgument a).argument = a := by
  refine List.ext_getElem (argument_length _) fun j hj hja => ?_
  have hread := Memory.read_writeAll_inside a s.inBuf 0 j hja
  rw [Nat.zero_add] at hread
  simp [State.argument, State.inElem, State.withArgument, hread, hja]

/-- What a command computes of its argument. -/
def codec : Instr → Config → List Nat → OpResult
  | .enc => b64Encode
  | .dec => b64Decode

/-- A command's result on an argument that fits is the codec's. -/
theorem resultOf_eq_codec {s : State} (command : Instr) (hlen : s.inLen ≤ s.cfg.inCap) :
    resultOf command s = codec command s.cfg s.argument := by
  cases command <;> exact if_neg (Nat.not_lt.mpr hlen)

/-- The engine's result after acceptance is the command's own. -/
theorem engineResult_accept (s : State) (command : Instr) :
    engineResult (accept s (encode command)) = resultOf command s := by
  rw [engineResult, fetchWord, accept_opLatch, decode_encode]
  cases command <;> rfl

theorem commit_argument (s : State) (r : OpResult) : (commit s r).argument = s.argument := by
  cases r <;> rfl

/-- The host finds the result that was committed. -/
theorem holdsResult_commit (s : State) (r : OpResult) : (commit s r).holdsResult r := by
  cases r with
  | ok out => exact ⟨doneStatus_ok, rfl, rfl, rfl, fun j hj => outElem_commit_ok s out hj⟩
  | fail err sub pos val => exact ⟨rfl, rfl, rfl, rfl⟩

/-! ### Several lines -/

section programs

variable {s : State} {rest : List HostStep} {i n : Nat} {a : List Nat} {command : Instr}

/-- The element writes of `LOAD`, from index `i` on. -/
theorem runsTo_wrIns (hb : s.busy = false) (hr : s.resetIn = false)
    (hs : s.script = ((a.zipIdx i).map fun x => lineWrIn x.2 x.1) ++ rest)
    (hi : i + a.length ≤ s.cfg.inCap) (ha : ∀ u ∈ a, u < 2 ^ s.cfg.cuW) :
    RunsTo s a.length { s with inBuf := Memory.writeAll s.inBuf i a, script := rest } := by
  induction a generalizing s i with
  | nil =>
    have hrest : s.script = rest := hs
    subst hrest
    exact RunsTo.refl s
  | cons v a ih =>
    rw [List.length_cons] at hi
    have hfirst := runsTo_wrIn (rest := ((a.zipIdx (i + 1)).map fun x => lineWrIn x.2 x.1) ++ rest)
      hb hr hs (by omega) (ha v List.mem_cons_self)
    rw [List.length_cons, Nat.add_comm]
    exact hfirst.trans fun T l =>
      ih hb hr rfl (show i + 1 + a.length ≤ s.cfg.inCap by omega)
        fun u hu => ha u (List.mem_cons_of_mem v hu)

/-- `LOAD` (30_encoding.md R98). -/
theorem runsTo_load (hb : s.busy = false) (hr : s.resetIn = false)
    (hs : s.script = loadLines a ++ rest) (hlen : a.length ≤ s.cfg.inCap)
    (ha : ∀ u ∈ a, u < 2 ^ s.cfg.cuW) :
    RunsTo s (a.length + 1) ((s.withArgument a).setScript rest) := by
  rw [loadLines, List.append_assoc] at hs
  have helems := runsTo_wrIns hb hr hs (by omega) ha
  exact helems.trans fun T l => runsTo_wrInLen hb hr rfl hlen

/-- A command and its `WAIT`: acceptance, the engine's step, and the read that finds `DONE`. -/
theorem runsTo_command (hb : s.busy = false) (hr : s.resetIn = false)
    (hs : s.script = lineCmd (encode command) :: .wait :: rest) :
    RunsTo s 3 (commit ((accept s (encode command)).setScript rest) (resultOf command s)) := by
  have haccept := runsTo_cmd hb hr hs
  have hcomplete : RunsTo s 2
      ((commit (accept s (encode command)) (resultOf command s)).setScript (.wait :: rest)) := by
    rw [← commit_setScript, ← engineResult_accept]
    refine haccept.trans (n := 1) fun T l => ?_
    rw [← commit_withTurnsSeen]
    exact runsTo_complete (accept_busy s (encode command)) (accept_done s (encode command)) rfl
  rw [commit_setScript]
  exact hcomplete.trans (n := 1) fun T l =>
    runsTo_wait_done (commit_busy (accept s (encode command)) _)
      (commit_done (accept s (encode command)) _) rfl

/-- `CALL_ENC` and `CALL_DEC` (30_encoding.md R98). -/
theorem runsTo_call (hb : s.busy = false) (hr : s.resetIn = false)
    (hs : s.script = loadLines a ++ ([lineCmd (encode command), .wait] ++ rest))
    (hlen : a.length ≤ s.cfg.inCap) (ha : ∀ u ∈ a, u < 2 ^ s.cfg.cuW) :
    RunsTo s (a.length + 4)
      (commit ((accept (s.withArgument a) (encode command)).setScript rest)
        (codec command s.cfg a)) := by
  have hresult : resultOf command (s.withArgument a) = codec command s.cfg a := by
    rw [resultOf_eq_codec command hlen, argument_withArgument]
    rfl
  rw [← hresult]
  refine (runsTo_load hb hr hs hlen ha).trans (n := 3) fun T l => ?_
  rw [← commit_withTurnsSeen]
  exact runsTo_command hb hr rfl

/-- The copying of `MOVE`, from index `i` on. -/
theorem runsTo_copyOuts (hb : s.busy = false) (hr : s.resetIn = false)
    (hs : s.script = (List.range' i n).map .copyOut ++ rest) (hi : i + n ≤ s.cfg.inCap) :
    RunsTo s (2 * n)
      { s with
        inBuf := Memory.writeAll s.inBuf i ((List.range' i n).map fun j => (s.outElem j).toNat)
        script := rest } := by
  induction n generalizing s i with
  | zero =>
    have hrest : s.script = rest := hs
    subst hrest
    exact RunsTo.refl s
  | succ n ih =>
    rw [List.range'_succ, List.map_cons, List.cons_append] at hs
    have hfirst := runsTo_copyOut hb hr hs (by omega)
    rw [Nat.mul_succ, Nat.add_comm]
    exact hfirst.trans fun T l => ih hb hr rfl (show i + 1 + n ≤ s.cfg.inCap by omega)

/-- `MOVE` once the host knows the length: the elements in order, then their number. -/
theorem runsTo_moveExpansion (hb : s.busy = false) (hr : s.resetIn = false)
    (hs : s.script = moveExpansion n ++ rest) (hn : n ≤ s.cfg.inCap) :
    RunsTo s (2 * n + 1)
      ((s.withArgument ((List.range n).map fun j => (s.outElem j).toNat)).setScript rest) := by
  rw [moveExpansion, List.append_assoc, List.range_eq_range'] at hs
  rw [State.withArgument, List.length_map, List.length_range, List.range_eq_range']
  have hcopies := runsTo_copyOuts hb hr hs (by omega)
  exact hcopies.trans fun T l => runsTo_wrInLen hb hr rfl hn

/-- `MOVE` (30_encoding.md R98; 70_reset_and_hazards.md R264). -/
theorem runsTo_move (hb : s.busy = false) (hr : s.resetIn = false)
    (hs : s.script = .move :: rest) (hlen : s.outLen ≤ s.cfg.inCap) :
    RunsTo s (2 * s.outLen + 2)
      ((s.withArgument ((List.range s.outLen).map fun j => (s.outElem j).toNat)).setScript rest) := by
  have hread := runsTo_move_read hb hs
  rw [show 2 * s.outLen + 2 = 1 + (2 * s.outLen + 1) by omega]
  exact hread.trans fun T l => runsTo_moveExpansion hb hr rfl hlen

end programs

/-! ### `CALL_ENC`, `CALL_DEC` and `MOVE` -/

/-- `LOAD`, a command and its `WAIT` leave what the command computes of the loaded argument. -/
theorem call_computes_codec (command : Instr) {s : State} {a : List Nat} {rest : List HostStep}
    (hb : s.busy = false) (hr : s.resetIn = false)
    (hs : s.script = loadLines a ++ [lineCmd (encode command), .wait] ++ rest)
    (hlen : a.length ≤ s.cfg.inCap) (ha : ∀ u ∈ a, u < 2 ^ s.cfg.cuW) :
    ∃ (k : Nat) (t : State), Host.Core.run Sys2Proof.core k s = .next t ∧
      k + t.turns.length ≤ s.turns.length + (a.length + 4) ∧
      (s.turns = [] → k = a.length + 4 ∧ t.turns = []) ∧ t.busy = false ∧ t.resetIn = false ∧
      t.script = rest ∧ t.inLen = a.length ∧ t.argument = a ∧
      t.holdsResult (codec command s.cfg a) := by
  rw [List.append_assoc] at hs
  obtain ⟨T, l, k, hreach⟩ := runsTo_call hb hr hs hlen ha
  rw [← commit_withTurnsSeen] at hreach
  obtain ⟨hrun, hbound, hexact⟩ := hreach
  obtain ⟨-, hinLen, -, -, hreset, -, hscript, -⟩ :=
    commit_frame (((accept (s.withArgument a) (encode command)).setScript rest).withTurnsSeen T l)
      (codec command s.cfg a)
  exact ⟨k, _, hrun, hbound, hexact, commit_busy _ _, hreset.trans hr, hscript, hinLen,
    (commit_argument _ _).trans (argument_withArgument s a), holdsResult_commit _ _⟩

/-- Settles O54: `MOVE` is the writes of the output elements from index 0 on, and of their number. -/
theorem moveCopiesResultToArgument : Obligations.MoveCopiesResultToArgument := by
  unfold Obligations.MoveCopiesResultToArgument
  intro s rest hb hr hs hlen
  obtain ⟨T, l, k, hrun, hbound, hexact⟩ := runsTo_move hb hr hs hlen
  have hcopied : ((List.range s.outLen).map fun j => (s.outElem j).toNat).length = s.outLen := by
    simp
  exact ⟨k, _, hrun, hbound, hexact, hb, hr, rfl, hcopied, rfl, rfl, rfl, rfl,
    argument_withArgument s _⟩

/-- Settles O52: `CALL_ENC` is `LOAD`, `ENC` and `WAIT`. -/
theorem callEncComputesEncode : Obligations.CallEncComputesEncode := by
  unfold Obligations.CallEncComputesEncode
  exact fun s a rest hb hr hs hlen ha => call_computes_codec .enc hb hr hs hlen ha

/-- Settles O53: `CALL_DEC` is `LOAD`, `DEC` and `WAIT`. -/
theorem callDecComputesDecode : Obligations.CallDecComputesDecode := by
  unfold Obligations.CallDecComputesDecode
  exact fun s a rest hb hr hs hlen ha => call_computes_codec .dec hb hr hs hlen ha

end Sys2Proof.Machine
end

section
/-! The look-up tables and the element classes (40_alphabet_lut.md R115, R116): `DEC_LUT` finds exactly
the symbol that `ENC_LUT` gives, and no symbol is whitespace, padding or at least 0x80. -/

namespace Sys2Proof.Machine

/-! ### The look-up tables -/

/-- Distinct entries of the alphabet have distinct codes. -/
theorem alphabet_toNat_inj (c : Config) {i j : Nat} (hi : i < c.alphabet.length)
    (hj : j < c.alphabet.length) : c.alphabet[i].toNat = c.alphabet[j].toNat ↔ i = j := by
  obtain ⟨-, -, -, -, hnodup, -⟩ := config_facts c
  rw [BitVec.toNat_inj, hnodup.getElem_inj_iff]

/-- `DEC_LUT` finds a value exactly at the symbol that `ENC_LUT` gives for it. -/
theorem decLut_eq_some_iff (c : Config) (u : Nat) (v : Sextet) :
    decLut c u = some v ↔ u = (encLut c v).toNat := by
  obtain ⟨hv, hsym⟩ := encLut_eq_getElem c v
  rw [decLut, Option.map_eq_some_iff, hsym]
  constructor
  · rintro ⟨i, hfind, rfl⟩
    obtain ⟨hi, hu, -⟩ := List.findIdx?_eq_some_iff_getElem.mp hfind
    have hindex : (BitVec.ofNat 6 i).toNat = i := by
      obtain ⟨-, -, -, hsize, -⟩ := config_facts c
      rw [BitVec.toNat_ofNat, Nat.mod_eq_of_lt (by omega)]
    simpa [hindex] using (beq_iff_eq.mp hu).symm
  · rintro rfl
    refine ⟨v.toNat, List.findIdx?_eq_some_iff_getElem.mpr ⟨hv, beq_self_eq_true _, ?_⟩,
      by simp⟩
    intro j hj
    rw [beq_iff_eq, alphabet_toNat_inj]
    omega

@[simp] theorem decLut_encLut (c : Config) (v : Sextet) : decLut c (encLut c v).toNat = some v :=
  (decLut_eq_some_iff c _ v).mpr rfl

/-- The elements that have a value are the codes of the alphabet. -/
theorem decLut_isSome_iff (c : Config) (u : Nat) :
    (decLut c u).isSome = true ↔ u ∈ c.alphabet.map BitVec.toNat := by
  simp [decLut]

/-- Settles O35: both inverse laws are the table equivalence, and the elements with a value are the 64
distinct codes of the alphabet, each of which fits an element. -/
theorem lookupTablesAreInverse : Obligations.LookupTablesAreInverse := by
  unfold Obligations.LookupTablesAreInverse
  intro c
  obtain ⟨-, -, -, hsize, hnodup, -⟩ := config_facts c
  refine ⟨decLut_encLut c, fun u v h => ((decLut_eq_some_iff c u v).mp h).symm,
    c.alphabet.map BitVec.toNat, hnodup.map fun _ _ => BitVec.eq_of_toNat_eq, by simpa using hsize,
    fun u => ?_⟩
  rw [decLut_isSome_iff, and_iff_right_iff_imp, List.mem_map]
  rintro ⟨b, -, rfl⟩
  exact byte_lt_two_pow_cuW c b

/-! ### The element classes -/

theorem isWs_toNat_iff (b : Byte) : isWs b.toNat = true ↔ b ∈ whitespace := by
  simp [isWs, BitVec.toNat_inj]

theorem isPad_toNat_iff (b : Byte) : isPad b.toNat = true ↔ b = pad := by
  rw [isPad, beq_iff_eq, BitVec.toNat_inj, eq_comm]

/-- No symbol is whitespace (00_scope.md R8 (d)). -/
@[simp] theorem isWs_encLut (c : Config) (v : Sextet) : isWs (encLut c v).toNat = false := by
  obtain ⟨-, -, -, -, -, -, -, hspace⟩ := config_facts c
  rw [← Bool.not_eq_true, isWs_toNat_iff]
  exact hspace _ (encLut_mem c v)

/-- No symbol is the padding symbol (00_scope.md R8 (c)). -/
@[simp] theorem isPad_encLut (c : Config) (v : Sextet) : isPad (encLut c v).toNat = false := by
  obtain ⟨-, -, -, -, -, -, hpad, -⟩ := config_facts c
  rw [← Bool.not_eq_true, isPad_toNat_iff]
  exact hpad _ (encLut_mem c v)

/-- Every symbol is ASCII (00_scope.md R8 (b)). -/
theorem encLut_toNat_lt (c : Config) (v : Sextet) : (encLut c v).toNat < 0x80 := by
  obtain ⟨-, -, -, -, -, hascii, -⟩ := config_facts c
  exact BitVec.lt_def.mp (hascii _ (encLut_mem c v))

/-- The padding symbol is no whitespace. -/
theorem isWs_eq_false_of_isPad {u : Nat} (h : isPad u = true) : isWs u = false := by
  rw [(isPad_iff u).mp h]
  decide

/-- The elements of each class (30_encoding.md R94), in terms of the class's own test alone. -/
def ElemClass.Contains (c : Config) (u : Nat) : ElemClass → Prop
  | .ws => isWs u = true
  | .pad => isPad u = true
  | .sym v => u = (encLut c v).toNat
  | .invalid => isWs u = false ∧ isPad u = false ∧ decLut c u = none

theorem classify_contains (c : Config) (u : Nat) : (classify c u).Contains c u := by
  unfold classify
  split
  · next hws => exact hws
  · next hws =>
    split
    · next hpad => exact hpad
    · next hpad =>
      cases hdec : decLut c u with
      | some v => exact (decLut_eq_some_iff c u v).mp hdec
      | none => exact ⟨Bool.eq_false_of_not_eq_true hws, Bool.eq_false_of_not_eq_true hpad, hdec⟩

/-- The order of the tests in `classify` does not matter: an element that passes one test fails those
in front of it. -/
theorem classify_eq_iff_contains (c : Config) (u : Nat) (k : ElemClass) :
    classify c u = k ↔ k.Contains c u := by
  refine ⟨fun h => h ▸ classify_contains c u, fun h => ?_⟩
  cases k with
  | ws => exact if_pos h
  | pad =>
    have hpad : isPad u = true := h
    simp [classify, isWs_eq_false_of_isPad hpad, hpad]
  | sym v =>
    have hsym : u = (encLut c v).toNat := h
    simp [classify, hsym]
  | invalid =>
    obtain ⟨hws, hpad, hdec⟩ := h
    simp [classify, hws, hpad, hdec]

/-- No whitespace code, padding or symbol is at least 0x80. -/
theorem classify_eq_invalid_of_le {c : Config} {u : Nat} (hu : 0x80 ≤ u) : classify c u = .invalid := by
  have hmem := classify_contains c u
  cases h : classify c u with
  | ws =>
    rw [h, ElemClass.Contains, isWs_iff] at hmem
    simp at hmem
    omega
  | pad =>
    rw [h, ElemClass.Contains, isPad_iff] at hmem
    omega
  | sym v =>
    rw [h, ElemClass.Contains] at hmem
    have hascii := encLut_toNat_lt c v
    omega
  | invalid => rfl

/-- Settles O36: each class is what its own test says, and no test admits a value of 0x80 or more. -/
theorem elementClassesAreDisjoint : Obligations.ElementClassesAreDisjoint := by
  unfold Obligations.ElementClassesAreDisjoint
  exact fun c u => ⟨(classify_eq_iff_contains c u .ws).trans (isWs_iff u),
    (classify_eq_iff_contains c u .pad).trans (isPad_iff u),
    fun v => classify_eq_iff_contains c u (.sym v), classify_eq_invalid_of_le⟩

end Sys2Proof.Machine
end

section
/-! The whitespace filter (41_whitespace_filter.md R132, R134, R135): what the index map lists, the
filter's algebra, and that a decode sees the filtered sequence alone, but for the position of a bad
character. -/

namespace Sys2Proof.Machine

/-! ### The index map -/

/-- The filter pairs each kept element with its own position. -/
theorem mk_mem_filterWs_iff {a : List Nat} {u i : Nat} :
    (u, i) ∈ filterWs a ↔ a[i]? = some u ∧ isWs u = false := by
  simp [filterWs, List.mk_mem_zipIdx_iff_getElem?]

@[simp] theorem length_indexMap (a : List Nat) : (indexMap a).length = (normalizeWs a).length := by
  simp [indexMap, filterWs_length]

theorem pairwise_lt_indexMap (a : List Nat) : (indexMap a).Pairwise (· < ·) := by
  have hsub : (indexMap a).Sublist (a.zipIdx.map Prod.snd) := List.filter_sublist.map Prod.snd
  rw [List.zipIdx_map_snd] at hsub
  exact List.Pairwise.sublist hsub List.pairwise_lt_range'

theorem mem_indexMap_iff (a : List Nat) (i : Nat) :
    i ∈ indexMap a ↔ ∃ u, a[i]? = some u ∧ isWs u = false := by
  simp [indexMap, mk_mem_filterWs_iff]

theorem getElem?_indexMap_getD (a : List Nat) {j : Nat} (hj : j < (normalizeWs a).length) :
    a[(indexMap a).getD j 0]? = (normalizeWs a)[j]? := by
  rw [← filterWs_length] at hj
  obtain ⟨hpos, -⟩ := mk_mem_filterWs_iff.mp (List.getElem_mem hj)
  simpa [indexMap, normalizeWs, hj] using hpos

/-- Settles O37: the index map is the position half of the filtered pairs, which keep the argument's
order. -/
theorem indexMapFindsEachElement : Obligations.IndexMapFindsEachElement := by
  unfold Obligations.IndexMapFindsEachElement
  exact fun a => ⟨length_indexMap a, pairwise_lt_indexMap a, fun _ => getElem?_indexMap_getD a,
    mem_indexMap_iff a⟩

/-! ### The algebra of the filter -/

theorem normalizeWs_length_le (a : List Nat) : (normalizeWs a).length ≤ a.length := by
  rw [normalizeWs_eq_filter]
  exact List.length_filter_le _ a

theorem normalizeWs_append (a b : List Nat) :
    normalizeWs (a ++ b) = normalizeWs a ++ normalizeWs b := by
  simp [normalizeWs_eq_filter]

theorem normalizeWs_eq_self_iff (a : List Nat) : normalizeWs a = a ↔ ∀ u ∈ a, isWs u = false := by
  simp [normalizeWs_eq_filter]

theorem normalizeWs_eq_nil_iff (a : List Nat) : normalizeWs a = [] ↔ ∀ u ∈ a, isWs u = true := by
  simp [normalizeWs_eq_filter]

/-- What the filter keeps is no whitespace, so a second pass removes nothing. -/
@[simp] theorem normalizeWs_normalizeWs (a : List Nat) :
    normalizeWs (normalizeWs a) = normalizeWs a := by
  rw [normalizeWs_eq_self_iff, normalizeWs_eq_filter]
  exact fun u hu => by simpa using List.of_mem_filter hu

/-! ### The encoder's output holds no whitespace -/

theorem symbol_or_pad_of_mem_padGroup {c : Config} {vs : List Sextet} {b : Byte}
    (hb : b ∈ padGroup (vs.map (encLut c))) : (∃ v, encLut c v = b) ∨ b = pad := by
  rcases List.mem_append.mp hb with hsym | hpad
  · obtain ⟨v, -, hv⟩ := List.mem_map.mp hsym
    exact .inl ⟨v, hv⟩
  · exact .inr (List.eq_of_mem_replicate hpad)

/-- The encoder writes symbols and padding only (43_encoder.md R184, R185). -/
theorem symbol_or_pad_of_mem_encodeBytes {c : Config} {bs : List Byte} {b : Byte}
    (hb : b ∈ encodeBytes c bs) : (∃ v, encLut c v = b) ∨ b = pad := by
  fun_induction encodeBytes c bs with
  | case1 b0 b1 b2 rest ih =>
    rcases List.mem_append.mp hb with hgroup | hrest
    · exact symbol_or_pad_of_mem_padGroup hgroup
    · exact ih hrest
  | case2 b0 b1 => exact symbol_or_pad_of_mem_padGroup hb
  | case3 b0 => exact symbol_or_pad_of_mem_padGroup hb
  | case4 => cases hb

theorem isWs_of_mem_encodeBytes {c : Config} {bs : List Byte} {b : Byte}
    (hb : b ∈ encodeBytes c bs) : isWs b.toNat = false := by
  rcases symbol_or_pad_of_mem_encodeBytes hb with ⟨v, rfl⟩ | rfl
  · exact isWs_encLut c v
  · decide

theorem eq_encodeBytes_of_b64Encode {c : Config} {a : List Nat} {out : List Byte}
    (h : b64Encode c a = .ok out) : out = encodeBytes c (a.map byteOf) := by
  unfold b64Encode at h
  split at h
  · cases h
  · exact (OpResult.ok.inj h).symm

theorem normalizeWs_encoded {c : Config} {a : List Nat} {out : List Byte}
    (h : b64Encode c a = .ok out) : normalizeWs (out.map BitVec.toNat) = out.map BitVec.toNat := by
  rw [eq_encodeBytes_of_b64Encode h, normalizeWs_eq_self_iff]
  exact List.forall_mem_map.mpr fun _ => isWs_of_mem_encodeBytes

/-! ### A decode sees the filtered sequence alone -/

/-- The agreement of two decodes that R135 asks for: the same bytes, or `InvalidCharacterError` with
the same sub-cause and value, where only the position of a bad character may differ. -/
def DecodesAgree (r r' : OpResult) : Prop :=
  (∃ out, r = .ok out ∧ r' = .ok out) ∨
  (∃ sub pos pos' val, r = .fail .invalidCharacter sub pos val ∧
    r' = .fail .invalidCharacter sub pos' val ∧ (sub ≠ .badchar → pos' = pos))

theorem DecodesAgree.fail_same (sub : Sub) (pos val : Nat) :
    DecodesAgree (.fail .invalidCharacter sub pos val) (.fail .invalidCharacter sub pos val) :=
  .inr ⟨sub, pos, pos, val, rfl, rfl, fun _ => rfl⟩

/-- Stage 4 looks at the elements of the core, not at their positions (42_decoder.md R145). -/
theorem map_fst_firstBad (c : Config) (core : List (Nat × Nat)) :
    (firstBad c core).map Prod.fst = (core.map Prod.fst).find? fun u => (decLut c u).isNone := by
  rw [List.find?_map]
  rfl

theorem decodeCore_agree (c : Config) {core core' : List (Nat × Nat)}
    (h : core.map Prod.fst = core'.map Prod.fst) :
    DecodesAgree (decodeCore c core) (decodeCore c core') := by
  have hlen : core.length = core'.length := by simpa using congrArg List.length h
  have hvals : core.filterMap (fun x => decLut c x.1) = core'.filterMap fun x => decLut c x.1 := by
    simpa [List.filterMap_map] using congrArg (List.filterMap (decLut c)) h
  have hbad : (firstBad c core).map Prod.fst = (firstBad c core').map Prod.fst := by
    rw [map_fst_firstBad, map_fst_firstBad, h]
  unfold decodeCore
  cases hcore : firstBad c core with
  | some x =>
    obtain ⟨x', hcore', hfst⟩ : ∃ x', firstBad c core' = some x' ∧ x'.1 = x.1 := by
      simpa [hcore, eq_comm] using hbad
    rw [hcore']
    exact .inr ⟨.badchar, x.2, x'.2, x.1, rfl, by rw [← hfst], fun hne => absurd rfl hne⟩
  | none =>
    have hcore' : firstBad c core' = none := by simpa [hcore, eq_comm] using hbad
    simp only [hcore', ← hlen, ← hvals]
    split
    · exact .fail_same ..
    · exact .inl ⟨_, rfl, rfl⟩

theorem decodeStripped_agree (c : Config) {s s' : List (Nat × Nat)}
    (h : s.map Prod.fst = s'.map Prod.fst) (p : Nat) :
    DecodesAgree (decodeStripped c s p) (decodeStripped c s' p) := by
  have hlen : s.length = s'.length := by simpa using congrArg List.length h
  unfold decodeStripped
  rw [← hlen]
  split
  · exact .fail_same ..
  · exact decodeCore_agree c (by rw [List.map_take, List.map_take, h])

/-- The length test and the padding count are taken of the filtered sequence (42_decoder.md R140). -/
theorem b64Decode_agree (c : Config) {a a' : List Nat} (h : normalizeWs a = normalizeWs a') :
    DecodesAgree (b64Decode c a) (b64Decode c a') := by
  unfold b64Decode
  rw [filterWs_length, filterWs_length, ← h]
  split
  · exact .fail_same ..
  · exact decodeStripped_agree c h _

theorem b64Decode_of_all_ws (c : Config) {a : List Nat} (h : ∀ u ∈ a, isWs u = true) :
    b64Decode c a = .ok [] := by
  have hempty : filterWs a = [] := List.map_eq_nil_iff.mp ((normalizeWs_eq_nil_iff a).mpr h)
  simp [b64Decode, decodeStripped, decodeCore, firstBad, unpackAll, hempty]

/-- Settles O38: the filter is `List.filter` on the elements, an argument of whitespace alone leaves
the decoder nothing to read, and the encoder writes symbols and padding, which are no whitespace. -/
theorem filterLaws : Obligations.FilterLaws := by
  unfold Obligations.FilterLaws
  exact ⟨fun a => ⟨normalizeWs_length_le a, normalizeWs_normalizeWs a, normalizeWs_eq_self_iff a,
    normalizeWs_eq_nil_iff a⟩, normalizeWs_append, fun c _ => b64Decode_of_all_ws c,
    fun _ _ _ => normalizeWs_encoded⟩

/-- Settles O39: each stage after the filter answers the same for sequences with the same elements,
and filtering twice is filtering once. -/
theorem whitespaceNeverChangesDecode : Obligations.WhitespaceNeverChangesDecode := by
  unfold Obligations.WhitespaceNeverChangesDecode
  exact fun c a => b64Decode_agree c (normalizeWs_normalizeWs a).symm

end Sys2Proof.Machine
end

section
/-! The outcome of a decode (42_decoder.md R142 to R152): which argument has which outcome, in terms of
the filtered sequence and its core, the length of a result, and what `DEC` records of a failure. -/

namespace Sys2Proof.Machine

/-! ### The first element that is no symbol -/

/-- The first element of `l` that has no value is `u`, at position `j` (42_decoder.md R145). -/
def FirstBadAt (c : Config) (l : List Nat) (j u : Nat) : Prop :=
  l[j]? = some u ∧ decLut c u = none ∧ ∀ k w, k < j → l[k]? = some w → (decLut c w).isSome = true

theorem exists_firstBadAt {c : Config} {l : List Nat} (h : ∃ u ∈ l, decLut c u = none) :
    ∃ j u, FirstBadAt c l j u := by
  obtain ⟨u, hmem, hu⟩ := h
  obtain ⟨x, hx⟩ := Option.isSome_iff_exists.mp
    (List.find?_isSome.mpr ⟨u, hmem, Option.isNone_iff_eq_none.mpr hu⟩ :
      (l.find? fun w => (decLut c w).isNone).isSome = true)
  obtain ⟨hnone, j, hj, rfl, hbefore⟩ := List.find?_eq_some_iff_getElem.mp hx
  refine ⟨j, l[j], List.getElem?_eq_getElem hj, Option.isNone_iff_eq_none.mp hnone, ?_⟩
  intro k w hk hw
  obtain ⟨_, rfl⟩ := List.getElem?_eq_some_iff.mp hw
  simpa using hbefore k hk

/-- Stage 4 stops at the first element of the core that is no symbol. -/
theorem decodeCore_of_firstBadAt {c : Config} {core : List (Nat × Nat)} {j u : Nat}
    (h : FirstBadAt c (core.map Prod.fst) j u) :
    decodeCore c core = .fail .invalidCharacter .badchar ((core.map Prod.snd).getD j 0) u := by
  obtain ⟨hj, hu, hbefore⟩ := h
  obtain ⟨hlt, hval⟩ := List.getElem?_eq_some_iff.mp hj
  rw [List.length_map] at hlt
  rw [List.getElem_map] at hval
  have hfirst : firstBad c core = some core[j] := by
    refine List.find?_eq_some_iff_getElem.mpr ⟨by simp [hval, hu], j, hlt, rfl, fun k hk => ?_⟩
    simpa using hbefore k core[k].1 hk (by simp [hk.trans hlt])
  simp [decodeCore, hfirst, hval, hlt]

/-- A core of symbols passes stage 4. -/
theorem decodeCore_of_symbols {c : Config} {core : List (Nat × Nat)}
    (h : ∀ u ∈ core.map Prod.fst, (decLut c u).isSome = true) :
    decodeCore c core =
      if core.length % 4 = 1 then .fail .invalidCharacter .dangling core.length 0
      else .ok (unpackAll ((core.map Prod.fst).filterMap (decLut c))) := by
  have hfirst : firstBad c core = none :=
    List.find?_eq_none.mpr fun x hx => by
      simpa [Option.isSome_iff_ne_none] using h x.1 (List.mem_map_of_mem hx)
  rw [decodeCore, hfirst, List.filterMap_map]
  rfl

/-! ### The outcome of a decode, said once -/

/-- The core of an argument (42_decoder.md R143). -/
abbrev decodedCore (c : Config) (a : List Nat) : List Nat := coreOf c.padStrip (normalizeWs a)

/-- The outcome of `decode(a)` in terms of the filtered sequence and its core: one constructor for each
failure, in the order of the tests (60_exceptions.md R217), and one for success. The premises of any two
exclude each other. -/
inductive DecodeOutcome (c : Config) (a : List Nat) : OpResult → Prop
  | len1 (hlen : (normalizeWs a).length % 4 = 1) :
      DecodeOutcome c a (.fail .invalidCharacter .len1 (normalizeWs a).length 0)
  | padlen (hlen : (normalizeWs a).length % 4 ≠ 1) (hpad : padsRemoved c.padStrip (normalizeWs a) = 1)
      (hcore : (decodedCore c a).length % 4 = 1) :
      DecodeOutcome c a (.fail .invalidCharacter .padlen (decodedCore c a).length 0)
  | badchar {j u : Nat} (hlen : (normalizeWs a).length % 4 ≠ 1)
      (hpad : ¬(padsRemoved c.padStrip (normalizeWs a) = 1 ∧ (decodedCore c a).length % 4 = 1))
      (hbad : FirstBadAt c (decodedCore c a) j u) :
      DecodeOutcome c a (.fail .invalidCharacter .badchar ((indexMap a).getD j 0) u)
  | dangling (hlen : (normalizeWs a).length % 4 ≠ 1) (hpad : padsRemoved c.padStrip (normalizeWs a) ≠ 1)
      (hsym : ∀ u ∈ decodedCore c a, (decLut c u).isSome = true)
      (hcore : (decodedCore c a).length % 4 = 1) :
      DecodeOutcome c a (.fail .invalidCharacter .dangling (decodedCore c a).length 0)
  | ok (hlen : (normalizeWs a).length % 4 ≠ 1) (hcore : (decodedCore c a).length % 4 ≠ 1)
      (hsym : ∀ u ∈ decodedCore c a, (decLut c u).isSome = true) :
      DecodeOutcome c a (.ok (unpackAll ((decodedCore c a).filterMap (decLut c))))

/-- The tests of the five stages leave no argument without an outcome. -/
theorem exists_decodeOutcome (c : Config) (a : List Nat) : ∃ r, DecodeOutcome c a r := by
  by_cases hlen : (normalizeWs a).length % 4 = 1
  · exact ⟨_, .len1 hlen⟩
  by_cases hpad : padsRemoved c.padStrip (normalizeWs a) = 1 ∧ (decodedCore c a).length % 4 = 1
  · exact ⟨_, .padlen hlen hpad.1 hpad.2⟩
  by_cases hsym : ∀ u ∈ decodedCore c a, (decLut c u).isSome = true
  · by_cases hcore : (decodedCore c a).length % 4 = 1
    · exact ⟨_, .dangling hlen (fun hp => hpad ⟨hp, hcore⟩) hsym hcore⟩
    · exact ⟨_, .ok hlen hcore hsym⟩
  · obtain ⟨j, u, hbad⟩ := exists_firstBadAt (c := c) (l := decodedCore c a) (by simpa using hsym)
    exact ⟨_, .badchar hlen hpad hbad⟩

/-- Past stages 2 and 3 the decode is that of the core, with each element's index. -/
theorem b64Decode_eq_decodeCore {c : Config} {a : List Nat} (hlen : (normalizeWs a).length % 4 ≠ 1)
    (hpad : ¬(padsRemoved c.padStrip (normalizeWs a) = 1 ∧ (decodedCore c a).length % 4 = 1)) :
    b64Decode c a = decodeCore c ((filterWs a).take (decodedCore c a).length) := by
  rw [coreOf_length] at hpad ⊢
  rw [b64Decode, filterWs_length, if_neg hlen, decodeStripped, filterWs_length, if_neg hpad]

theorem map_fst_take_core (c : Config) (a : List Nat) :
    ((filterWs a).take (decodedCore c a).length).map Prod.fst = decodedCore c a := by
  rw [coreOf_length, ← filterWs_length]
  exact map_fst_core c.padStrip a

/-- A position of the core has the same index as in the filtered sequence. -/
theorem getD_map_snd_take (a : List Nat) {n j : Nat} (hj : j < n) :
    (((filterWs a).take n).map Prod.snd).getD j 0 = (indexMap a).getD j 0 := by
  simp [indexMap, List.getD_eq_getElem?_getD, List.getElem?_take_of_lt hj]

theorem DecodeOutcome.eq_b64Decode {c : Config} {a : List Nat} {r : OpResult}
    (h : DecodeOutcome c a r) : b64Decode c a = r := by
  have hfst := map_fst_take_core c a
  have hlength : ((filterWs a).take (decodedCore c a).length).length = (decodedCore c a).length := by
    simpa using congrArg List.length hfst
  cases h with
  | len1 hlen => rw [b64Decode, filterWs_length, if_pos hlen]
  | padlen hlen hpad hcore =>
    rw [coreOf_length] at hcore ⊢
    rw [b64Decode, filterWs_length, if_neg hlen, decodeStripped, filterWs_length,
      if_pos ⟨hpad, hcore⟩]
  | @badchar j u hlen hpad hbad =>
    have hj : j < (decodedCore c a).length := (List.getElem?_eq_some_iff.mp hbad.1).1
    rw [b64Decode_eq_decodeCore hlen hpad, decodeCore_of_firstBadAt (hfst.symm ▸ hbad),
      getD_map_snd_take a hj]
  | dangling hlen hpad hsym hcore =>
    rw [b64Decode_eq_decodeCore hlen fun h => hpad h.1, decodeCore_of_symbols (hfst.symm ▸ hsym),
      hlength, if_pos hcore]
  | ok hlen hcore hsym =>
    rw [b64Decode_eq_decodeCore hlen fun h => hcore h.2, decodeCore_of_symbols (hfst.symm ▸ hsym),
      hlength, if_neg hcore, hfst]

theorem b64Decode_eq_iff {c : Config} {a : List Nat} {r : OpResult} :
    b64Decode c a = r ↔ DecodeOutcome c a r := by
  refine ⟨fun h => ?_, DecodeOutcome.eq_b64Decode⟩
  obtain ⟨r', hr'⟩ := exists_decodeOutcome c a
  rwa [← h, hr'.eq_b64Decode]

/-- Settles O47: success is the outcome of exactly the arguments that pass every test. -/
theorem decodeSucceedsExactly : Obligations.DecodeSucceedsExactly := by
  unfold Obligations.DecodeSucceedsExactly
  intro c a
  constructor
  · rintro ⟨out, h⟩
    cases b64Decode_eq_iff.mp h with
    | ok hlen hcore hsym => exact ⟨hlen, hcore, hsym⟩
  · rintro ⟨hlen, hcore, hsym⟩
    exact ⟨_, b64Decode_eq_iff.mpr (.ok hlen hcore hsym)⟩

/-! ### The length of the result -/

theorem length_decodedCore_le (c : Config) (a : List Nat) : (decodedCore c a).length ≤ a.length := by
  rw [coreOf_length]
  exact (Nat.sub_le _ _).trans (normalizeWs_length_le a)

/-- Settles O51: the unpacker's length on the core, which is no longer than the argument. -/
theorem decodedLengthFits : Obligations.DecodedLengthFits := by
  unfold Obligations.DecodedLengthFits
  intro c a out h
  cases b64Decode_eq_iff.mp h with
  | ok hlen hcore hsym =>
    have hle := length_decodedCore_le c a
    rw [unpackAll_length, List.filterMap_length_eq_length.mpr hsym]
    generalize (decodedCore c a).length = n at hcore hle ⊢
    refine ⟨rfl, ?_, by omega, fun hfits => ?_⟩
    · have hgroup : n % 4 = 0 ∨ n % 4 = 2 ∨ n % 4 = 3 := by omega
      rcases hgroup with h4 | h4 | h4 <;> simp only [h4] <;> omega
    · obtain ⟨-, hcap, -⟩ := config_facts c
      unfold Params.outCap
      omega

/-! ### `DEC` on an argument that fits -/

theorem exec_dec_of_outcome {s : State} {r : OpResult} (hfits : s.inLen ≤ s.cfg.inCap)
    (h : DecodeOutcome s.cfg s.argument r) : exec .dec s = .next (commit s r) := by
  rw [exec_eq_commit, resultOf_eq_codec .dec hfits]
  exact congrArg (fun r => Host.Outcome.next (commit s r)) h.eq_b64Decode

/-- Only in `DOC` mode does padding removal leave a core of length 1 mod 4 (42_decoder.md R153). -/
theorem padStrip_eq_doc_of_core {c : Config} {a : List Nat} (hlen : (normalizeWs a).length % 4 ≠ 1)
    (hcore : (decodedCore c a).length % 4 = 1) : c.padStrip = .doc := by
  rw [coreOf_length] at hcore
  cases hmode : c.padStrip with
  | doc => rfl
  | aligned => exact absurd (hmode ▸ hcore) (aligned_core_length _ hlen)

/-- A core of length 1 mod 4 that passed stage 3 has lost two padding symbols (42_decoder.md R146). -/
theorem two_padsRemoved_of_core {m : PadStrip} {s : List Nat} (hlen : s.length % 4 ≠ 1)
    (hpad : padsRemoved m s ≠ 1) (hcore : (coreOf m s).length % 4 = 1) :
    padsRemoved m s = 2 ∧ s.length % 4 = 3 := by
  have hle := padsRemoved_le m s
  rw [coreOf_length] at hcore
  omega

/-- Settles O48: each failure's constructor of `DecodeOutcome`, committed. -/
theorem decFailuresInOrder : Obligations.DecFailuresInOrder := by
  unfold Obligations.DecFailuresInOrder
  intro s hfits
  refine ⟨fun hlen => ?_, fun hlen hpad hcore => ⟨padStrip_eq_doc_of_core hlen hcore, ?_⟩,
    fun j u hlen hpad hj hu hbefore => ?_, fun hlen hpad hsym hcore => ?_⟩
  · rw [exec_dec_of_outcome hfits (.len1 hlen), ← doneStatus_len1]
    rfl
  · rw [exec_dec_of_outcome hfits (.padlen hlen hpad hcore), ← doneStatus_padlen]
    rfl
  · rw [exec_dec_of_outcome hfits (.badchar hlen hpad ⟨hj, hu, hbefore⟩), ← doneStatus_badchar]
    rfl
  · obtain ⟨hpads, hthree⟩ := two_padsRemoved_of_core hlen hpad hcore
    refine ⟨padStrip_eq_doc_of_core hlen hcore, hpads, hthree, ?_⟩
    rw [exec_dec_of_outcome hfits (.dangling hlen hpad hsym hcore), ← doneStatus_dangling]
    rfl

end Sys2Proof.Machine
end

section
/-! Padding removal (42_decoder.md R143) and the two `PAD_STRIP` modes (R153). -/

namespace Sys2Proof.Machine

/-! ### Padding removal -/

/-- A sequence ends in its trailing padding, and what is in front of it does not end in padding. -/
theorem eq_append_trailingPads (s : List Nat) :
    s = s.rdropWhile isPad ++ List.replicate (trailingPads s) pad.toNat := by
  have hpads : s.rtakeWhile isPad = List.replicate (trailingPads s) pad.toNat := by
    refine List.eq_replicate_iff.mpr ⟨by simp [List.rtakeWhile, trailingPads], fun u hu => ?_⟩
    exact (beq_iff_eq.mp (List.mem_rtakeWhile_imp hu)).symm
  rw [← hpads, List.rdropWhile_append_rtakeWhile]

theorem padsRemoved_eq (m : PadStrip) (s : List Nat) :
    padsRemoved m s = if m = .doc ∨ s.length % 4 = 0 then min (trailingPads s) 2 else 0 := by
  cases m <;> simp [padsRemoved]

theorem padsRemoved_le_trailingPads (m : PadStrip) (s : List Nat) :
    padsRemoved m s ≤ trailingPads s := by
  rw [padsRemoved_eq]
  split <;> omega

/-- A sequence is its core and the padding removed from it. -/
theorem eq_coreOf_append (m : PadStrip) (s : List Nat) :
    s = coreOf m s ++ List.replicate (padsRemoved m s) pad.toNat := by
  obtain ⟨k, hk⟩ := Nat.exists_eq_add_of_le' (padsRemoved_le_trailingPads m s)
  obtain ⟨core, hs⟩ : ∃ core, s = core ++ List.replicate (padsRemoved m s) pad.toNat :=
    ⟨s.rdropWhile isPad ++ List.replicate k pad.toNat, by
      rw [List.append_assoc, List.replicate_append_replicate, ← hk, ← eq_append_trailingPads]⟩
  have hcore : coreOf m s = core := by
    have hdrop := List.rdrop_append_length (l₁ := core)
      (l₂ := List.replicate (padsRemoved m s) pad.toNat)
    rwa [← hs, List.length_replicate] at hdrop
  rwa [hcore]

/-- Settles O49: the trailing padding is the maximal suffix of padding, and the core is what precedes
the part of it that is removed. -/
theorem paddingRemovalTakesTrailingPads : Obligations.PaddingRemovalTakesTrailingPads := by
  unfold Obligations.PaddingRemovalTakesTrailingPads
  refine fun m s => ⟨trailingPads s, ⟨s.rdropWhile isPad, eq_append_trailingPads s, fun hlast => ?_⟩,
    padsRemoved_eq m s, eq_coreOf_append m s⟩
  have hne : s.rdropWhile isPad ≠ [] := fun hnil => by simp [hnil] at hlast
  refine List.rdropWhile_last_not isPad s hne ?_
  rw [List.getLast_of_getLast?_eq_some hlast]
  decide

/-! ### The two `PAD_STRIP` modes -/

@[simp] theorem withPadStrip_padStrip (c : Config) (m : PadStrip) : (c.withPadStrip m).padStrip = m := rfl

/-- After padding removal the mode is not looked at again. -/
@[simp] theorem decodeStripped_withPadStrip (c : Config) (m : PadStrip) :
    decodeStripped (c.withPadStrip m) = decodeStripped c := rfl

/-- The mode enters a decode through the number of padding symbols removed alone. -/
theorem b64Decode_withPadStrip_congr (c : Config) {a : List Nat} {m m' : PadStrip}
    (h : padsRemoved m (normalizeWs a) = padsRemoved m' (normalizeWs a)) :
    b64Decode (c.withPadStrip m) a = b64Decode (c.withPadStrip m') a := by
  simp [b64Decode, h]

theorem padsRemoved_aligned_eq_doc {s : List Nat} (h : trailingPads s = 0 ∨ s.length % 4 = 0) :
    padsRemoved .aligned s = padsRemoved .doc s := by
  rcases h with h | h <;> simp [padsRemoved, h]

/-- The padding symbol has no value (00_scope.md R8 (c)). -/
@[simp] theorem decLut_pad (c : Config) : decLut c pad.toNat = none := by
  refine Option.eq_none_iff_forall_ne_some.mpr fun v hv => ?_
  have hsym := isPad_encLut c v
  rw [← (decLut_eq_some_iff c _ v).mp hv] at hsym
  exact absurd hsym (by decide)

/-- A symbol with two padding symbols behind it has nothing to filter out. -/
theorem normalizeWs_symbol_pads (c : Config) (v : Sextet) :
    normalizeWs [(encLut c v).toNat, pad.toNat, pad.toNat] =
      [(encLut c v).toNat, pad.toNat, pad.toNat] := by
  rw [normalizeWs_eq_self_iff]
  simp [isWs_eq_false_of_isPad (u := pad.toNat) (by decide)]

theorem padsRemoved_symbol_pads (c : Config) (v : Sextet) :
    padsRemoved .doc [(encLut c v).toNat, pad.toNat, pad.toNat] = 2 := by
  simp [padsRemoved, trailingPads, show isPad pad.toNat = true by decide]

/-- Each sub-cause occurs in `DOC` mode: on `=`, on `A=`, on `===`, and on a symbol with two `=`. -/
theorem exists_doc_failure (c : Config) {sub : Sub} (h : sub ≠ .none) :
    ∃ a pos val, b64Decode (c.withPadStrip .doc) a = .fail .invalidCharacter sub pos val := by
  cases sub with
  | none => exact absurd rfl h
  | len1 => exact ⟨[0x3D], _, _, b64Decode_eq_iff.mpr (.len1 (by decide))⟩
  | padlen =>
    have hpad : padsRemoved .doc (normalizeWs [0x41, 0x3D]) = 1 := by decide
    have hcore : (coreOf .doc (normalizeWs [0x41, 0x3D])).length % 4 = 1 := by decide
    exact ⟨[0x41, 0x3D], _, _, b64Decode_eq_iff.mpr (.padlen (by decide) hpad hcore)⟩
  | badchar =>
    have hpad : padsRemoved .doc (normalizeWs [0x3D, 0x3D, 0x3D]) ≠ 1 := by decide
    have hbad : FirstBadAt (c.withPadStrip .doc) (coreOf .doc (normalizeWs [0x3D, 0x3D, 0x3D]))
        0 pad.toNat := ⟨by decide, decLut_pad _, fun _ _ hk => absurd hk (Nat.not_lt_zero _)⟩
    exact ⟨[0x3D, 0x3D, 0x3D], _, _,
      b64Decode_eq_iff.mpr (.badchar (by decide) (fun h => hpad h.1) hbad)⟩
  | dangling =>
    have hcore : decodedCore (c.withPadStrip .doc) [(encLut c 0).toNat, pad.toNat, pad.toNat] =
        [(encLut c 0).toNat] := by
      rw [decodedCore, withPadStrip_padStrip, normalizeWs_symbol_pads, coreOf, padsRemoved_symbol_pads]
      rfl
    refine ⟨[(encLut c 0).toNat, pad.toNat, pad.toNat], _, _,
      b64Decode_eq_iff.mpr (.dangling ?_ ?_ ?_ ?_)⟩
    · rw [normalizeWs_symbol_pads]
      simp
    · rw [withPadStrip_padStrip, normalizeWs_symbol_pads, padsRemoved_symbol_pads]
      decide
    · rw [hcore]
      exact List.forall_mem_singleton.mpr (Option.isSome_of_mem (decLut_encLut c 0))
    · rw [hcore]
      rfl

/-- In `ALIGNED` mode the core of a sequence whose length is no multiple of 4 is the whole of it. -/
theorem coreOf_aligned {s : List Nat} (h : s.length % 4 ≠ 0) : coreOf .aligned s = s := by
  simp [coreOf, padsRemoved, h]

theorem pad_mem_of_trailingPads {s : List Nat} (h : 1 ≤ trailingPads s) : pad.toNat ∈ s := by
  rw [eq_append_trailingPads s]
  exact List.mem_append_right _ (List.mem_replicate.mpr ⟨by omega, rfl⟩)

/-- In `ALIGNED` mode padding that is not removed is an invalid character, if none is in front of it. -/
theorem exists_aligned_badchar (c : Config) {a : List Nat} (hpads : 1 ≤ trailingPads (normalizeWs a))
    (hlen0 : (normalizeWs a).length % 4 ≠ 0) (hlen1 : (normalizeWs a).length % 4 ≠ 1) :
    ∃ j u, FirstBadAt c (normalizeWs a) j u ∧ b64Decode (c.withPadStrip .aligned) a =
      .fail .invalidCharacter .badchar ((indexMap a).getD j 0) u := by
  obtain ⟨j, u, hbad⟩ :=
    exists_firstBadAt ⟨pad.toNat, pad_mem_of_trailingPads hpads, decLut_pad c⟩
  have hcore : decodedCore (c.withPadStrip .aligned) a = normalizeWs a := coreOf_aligned hlen0
  refine ⟨j, u, hbad, b64Decode_eq_iff.mpr (.badchar hlen1 (fun h => ?_) (hcore.symm ▸ hbad))⟩
  exact hlen1 (hcore ▸ h.2)

/-- Settles O50: the mode enters through the padding removed alone; `ALIGNED` never leaves a core of
length 1 mod 4, and padding that it does not remove is no symbol. -/
theorem padStripModesCompared : Obligations.PadStripModesCompared := by
  unfold Obligations.PadStripModesCompared
  refine ⟨fun c a pos val => ⟨fun h => ?_, fun h => ?_⟩, fun c _ => exists_doc_failure c,
    fun c a h => ?_, fun c a hpads hlen => ?_⟩
  · cases b64Decode_eq_iff.mp h with
    | padlen hlen hpad hcore => exact PadStrip.noConfusion (padStrip_eq_doc_of_core hlen hcore)
  · cases b64Decode_eq_iff.mp h with
    | dangling hlen hpad hsym hcore => exact PadStrip.noConfusion (padStrip_eq_doc_of_core hlen hcore)
  · rcases or_assoc.mpr h with hsame | hlen
    · exact b64Decode_withPadStrip_congr c (padsRemoved_aligned_eq_doc hsame)
    · exact (DecodeOutcome.len1 hlen).eq_b64Decode.trans (DecodeOutcome.len1 hlen).eq_b64Decode.symm
  · obtain ⟨j, u, ⟨hj, hu, hbefore⟩, hdecode⟩ :=
      exists_aligned_badchar c hpads (by omega) (by omega)
    exact ⟨j, u, hj, hu, hbefore, hdecode⟩

end Sys2Proof.Machine
end

section
/-! The bytes of a result (42_decoder.md R147, R148): the unpacker's words carry the payload bits in order,
and `DEC` leaves these bytes for the host. -/

namespace Sys2Proof.Machine

/-! ### The bits of a byte and of a group's word -/

theorem getMsbD_byteAt (vs : List Sextet) (j : Nat) {i : Nat} (hi : i < 8) :
    (byteAt vs j).getMsbD i = sextetBit vs (8 * j + i) := by
  unfold byteAt
  repeat rw [BitVec.getMsbD_append]
  interval_cases i <;> simp

/-- The word consists of the first `n` payload bits of `vs`, most significant first. -/
def CarriesPayload {n : Nat} (w : BitVec n) (vs : List Sextet) : Prop :=
  ∀ m, m < n → w.getMsbD m = sextetBit vs m

theorem carriesPayload_head (v : Sextet) (vs : List Sextet) : CarriesPayload v (v :: vs) := by
  intro m hm
  rw [sextetBit, Nat.div_eq_of_lt hm, Nat.mod_eq_of_lt hm]
  rfl

/-- The next value continues the payload. -/
theorem CarriesPayload.append {n : Nat} {w : BitVec n} {vs : List Sextet} (h : CarriesPayload w vs)
    {v : Sextet} (k : Nat) (hv : vs.getD k 0 = v) (hn : n = 6 * k) : CarriesPayload (w ++ v) vs := by
  intro m hm
  rw [BitVec.getMsbD_append]
  split
  · rw [sextetBit, show m / 6 = k by omega, show m % 6 = m - n by omega, hv]
  · exact h m (by omega)

/-- Byte `j` of a word that carries the payload. -/
theorem CarriesPayload.extract_eq_byteAt {n : Nat} {w : BitVec n} {vs : List Sextet}
    (h : CarriesPayload w vs) (start j : Nat) (hn : start + 8 * j + 8 = n) :
    w.extractLsb' start 8 = byteAt vs j := by
  refine BitVec.eq_of_getMsbD_eq fun i hi => ?_
  rw [getMsbD_byteAt vs j hi, ← h _ (by omega)]
  have hindex : start + (8 - 1 - i) = n - 1 - (8 * j + i) := by omega
  simp only [BitVec.getMsbD_eq_getLsbD, BitVec.getLsbD_extractLsb', hindex]
  simp [hi, show 8 - 1 - i < 8 by omega, show 8 * j + i < n by omega]

theorem unpack4_eq_byteAt (v0 v1 v2 v3 : Sextet) (vs : List Sextet) :
    unpack4 v0 v1 v2 v3 =
      [byteAt (v0 :: v1 :: v2 :: v3 :: vs) 0, byteAt (v0 :: v1 :: v2 :: v3 :: vs) 1,
        byteAt (v0 :: v1 :: v2 :: v3 :: vs) 2] := by
  have h2 : CarriesPayload (v0 ++ v1) (v0 :: v1 :: v2 :: v3 :: vs) :=
    (carriesPayload_head v0 _).append 1 rfl rfl
  have h3 : CarriesPayload (v0 ++ v1 ++ v2) (v0 :: v1 :: v2 :: v3 :: vs) := h2.append 2 rfl rfl
  have h : CarriesPayload (v0 ++ v1 ++ v2 ++ v3) (v0 :: v1 :: v2 :: v3 :: vs) := h3.append 3 rfl rfl
  rw [unpack4, h.extract_eq_byteAt 16 0 rfl, h.extract_eq_byteAt 8 1 rfl, h.extract_eq_byteAt 0 2 rfl]

theorem unpack3_eq_byteAt (v0 v1 v2 : Sextet) :
    unpack3 v0 v1 v2 = [byteAt [v0, v1, v2] 0, byteAt [v0, v1, v2] 1] := by
  have h2 : CarriesPayload (v0 ++ v1) [v0, v1, v2] := (carriesPayload_head v0 _).append 1 rfl rfl
  have h : CarriesPayload (v0 ++ v1 ++ v2) [v0, v1, v2] := h2.append 2 rfl rfl
  rw [unpack3, h.extract_eq_byteAt 10 0 rfl, h.extract_eq_byteAt 2 1 rfl]

theorem unpack2_eq_byteAt (v0 v1 : Sextet) : unpack2 v0 v1 = [byteAt [v0, v1] 0] := by
  have h : CarriesPayload (n := 12) (v0 ++ v1) [v0, v1] := (carriesPayload_head v0 _).append 1 rfl rfl
  rw [unpack2, h.extract_eq_byteAt 4 0 rfl]

/-! ### The unpacker -/

/-- A full group's four values hold the first 24 payload bits. -/
theorem sextetBit_add_24 (v0 v1 v2 v3 : Sextet) (vs : List Sextet) (m : Nat) :
    sextetBit (v0 :: v1 :: v2 :: v3 :: vs) (m + 24) = sextetBit vs m := by
  rw [sextetBit, show (m + 24) / 6 = m / 6 + 4 by omega, show (m + 24) % 6 = m % 6 by omega]
  rfl

theorem byteAt_add_three (v0 v1 v2 v3 : Sextet) (vs : List Sextet) (j : Nat) :
    byteAt (v0 :: v1 :: v2 :: v3 :: vs) (j + 3) = byteAt vs j := by
  simp only [byteAt, show 8 * (j + 3) = 8 * j + 24 by omega, Nat.add_right_comm _ 24,
    sextetBit_add_24]

/-- The unpacker's bytes are those of the payload bits. -/
theorem unpackAll_getD (vs : List Sextet) {j : Nat} (hj : j < (unpackAll vs).length) :
    (unpackAll vs).getD j 0 = byteAt vs j := by
  fun_induction unpackAll vs generalizing j with
  | case1 v0 v1 v2 v3 rest ih =>
    rw [unpack4_eq_byteAt v0 v1 v2 v3 rest] at hj ⊢
    match j with
    | 0 => rfl
    | 1 => rfl
    | 2 => rfl
    | j + 3 =>
      rw [byteAt_add_three]
      exact ih (by simpa using hj)
  | case2 v0 v1 v2 =>
    rw [unpack3_eq_byteAt] at hj ⊢
    match j with
    | 0 => rfl
    | 1 => rfl
  | case3 v0 v1 =>
    rw [unpack2_eq_byteAt] at hj ⊢
    match j with
    | 0 => rfl
  | case4 => cases hj
  | case5 => cases hj

/-- The symbols of values decode to these values. -/
theorem filterMap_decLut_symbols (c : Config) (vs : List Sextet) :
    (vs.map fun v => (encLut c v).toNat).filterMap (decLut c) = vs := by
  rw [List.filterMap_map]
  exact (List.filterMap_congr fun v _ => decLut_encLut c v).trans List.filterMap_some

/-- Settles O46: the core decodes to `vs`, and the host finds the unpacker's bytes. -/
theorem decCompletesWithBytes : Obligations.DecCompletesWithBytes := by
  unfold Obligations.DecCompletesWithBytes
  intro s vs hfits hlen hvs hcore
  have hok : DecodeOutcome s.cfg s.argument (.ok (unpackAll vs)) := by
    have hsym : ∀ u ∈ decodedCore s.cfg s.argument, (decLut s.cfg u).isSome = true := by
      rw [decodedCore, hcore]
      exact List.forall_mem_map.mpr fun v _ => Option.isSome_of_mem (decLut_encLut s.cfg v)
    have hok := DecodeOutcome.ok hlen (by rwa [decodedCore, hcore, List.length_map]) hsym
    rwa [decodedCore, hcore, filterMap_decLut_symbols] at hok
  obtain ⟨hstatus, hout, hpos, hval, hbytes⟩ := holdsResult_commit s (.ok (unpackAll vs))
  refine ⟨_, exec_dec_of_outcome hfits hok, hstatus, hout.trans (unpackAll_length vs), hpos, hval,
    fun j hj => ?_⟩
  rw [hout] at hj
  exact (hbytes j hj).trans (unpackAll_getD vs hj)

end Sys2Proof.Machine
end

section
/-! The encoder's values (43_encoder.md R182 to R186): a group of bytes and its 6-bit values are two
splits of one word, so regrouping and unpacking are inverse to each other on values with zero fill
bits; and what `encode` yields is the symbols of these values and padding. -/

namespace Sys2Proof.Machine

/-! ### A word and its splits -/

/-- A field of a word consists of two parts exactly when its upper and its lower bits are these. -/
theorem extractLsb'_eq_append_iff {k m n : Nat} (w : BitVec k) (start : Nat) (hi : BitVec m)
    (lo : BitVec n) :
    w.extractLsb' start (m + n) = hi ++ lo ↔
      w.extractLsb' (start + n) m = hi ∧ w.extractLsb' start n = lo := by
  rw [← BitVec.extractLsb'_append_extractLsb'_eq_extractLsb' rfl]
  constructor
  · intro h
    have hleft := congrArg (BitVec.extractLsb' n m) h
    have hright := congrArg (BitVec.extractLsb' 0 n) h
    simp only [BitVec.extractLsb'_append_eq_left, BitVec.extractLsb'_append_eq_right] at hleft hright
    exact ⟨hleft, hright⟩
  · rintro ⟨rfl, rfl⟩
    rfl

theorem eq_append_iff {m n : Nat} (w : BitVec (m + n)) (hi : BitVec m) (lo : BitVec n) :
    w = hi ++ lo ↔ w.extractLsb' n m = hi ∧ w.extractLsb' 0 n = lo := by
  have h := extractLsb'_eq_append_iff w 0 hi lo
  rwa [BitVec.extractLsb'_eq_self, Nat.zero_add] at h

/-! ### One group -/

/-- Three bytes and four values that are the same 24 bits. -/
theorem regroup3_eq_iff (b0 b1 b2 : Byte) (g0 g1 g2 g3 : Sextet) :
    regroup3 b0 b1 b2 = [g0, g1, g2, g3] ↔ unpack4 g0 g1 g2 g3 = [b0, b1, b2] := by
  have hvalues : b0 ++ b1 ++ b2 = g0 ++ g1 ++ g2 ++ g3 ↔ regroup3 b0 b1 b2 = [g0, g1, g2, g3] := by
    rw [eq_append_iff (m := 18) (n := 6), extractLsb'_eq_append_iff (m := 12) (n := 6),
      extractLsb'_eq_append_iff (m := 6) (n := 6)]
    simp [regroup3, and_assoc]
  have hbytes : g0 ++ g1 ++ g2 ++ g3 = b0 ++ b1 ++ b2 ↔ unpack4 g0 g1 g2 g3 = [b0, b1, b2] := by
    rw [eq_append_iff (m := 16) (n := 8), extractLsb'_eq_append_iff (m := 8) (n := 8)]
    simp [unpack4, and_assoc]
  rw [← hvalues, ← hbytes, eq_comm]

/-- Two bytes with two fill bits, and three values. -/
theorem regroup2_eq_iff (b0 b1 : Byte) (g0 g1 g2 : Sextet) :
    regroup2 b0 b1 = [g0, g1, g2] ↔ unpack3 g0 g1 g2 = [b0, b1] ∧ g2.extractLsb' 0 2 = 0 := by
  have hvalues : b0 ++ b1 ++ (0 : BitVec 2) = g0 ++ g1 ++ g2 ↔ regroup2 b0 b1 = [g0, g1, g2] := by
    rw [eq_append_iff (m := 12) (n := 6), extractLsb'_eq_append_iff (m := 6) (n := 6)]
    simp [regroup2, and_assoc]
  have hbytes : g0 ++ g1 ++ g2 = b0 ++ b1 ++ (0 : BitVec 2) ↔
      unpack3 g0 g1 g2 = [b0, b1] ∧ g2.extractLsb' 0 2 = 0 := by
    rw [eq_append_iff (m := 16) (n := 2), extractLsb'_eq_append_iff (m := 8) (n := 8),
      BitVec.extractLsb'_append_eq_of_add_le (start := 0) (by decide)]
    simp [unpack3]
  rw [← hvalues, ← hbytes, eq_comm]

/-- One byte with four fill bits, and two values. -/
theorem regroup1_eq_iff (b0 : Byte) (g0 g1 : Sextet) :
    regroup1 b0 = [g0, g1] ↔ unpack2 g0 g1 = [b0] ∧ g1.extractLsb' 0 4 = 0 := by
  have hvalues : b0 ++ (0 : BitVec 4) = g0 ++ g1 ↔ regroup1 b0 = [g0, g1] := by
    rw [eq_append_iff (m := 6) (n := 6)]
    simp [regroup1]
  have hbytes : g0 ++ g1 = b0 ++ (0 : BitVec 4) ↔ unpack2 g0 g1 = [b0] ∧ g1.extractLsb' 0 4 = 0 := by
    rw [eq_append_iff (m := 8) (n := 4),
      BitVec.extractLsb'_append_eq_of_add_le (start := 0) (by decide)]
    simp [unpack2]
  rw [← hvalues, ← hbytes, eq_comm]

/-- Settles O42: each side is a split of the other's 24 bits. -/
theorem regroupAndUnpackAreInverse : Obligations.RegroupAndUnpackAreInverse := by
  unfold Obligations.RegroupAndUnpackAreInverse
  exact ⟨fun b0 b1 b2 => ⟨_, _, _, _, rfl, (regroup3_eq_iff b0 b1 b2 _ _ _ _).mp rfl⟩,
    fun v0 v1 v2 v3 => ⟨_, _, _, rfl, (regroup3_eq_iff _ _ _ v0 v1 v2 v3).mpr rfl⟩⟩

/-! ### All groups -/

/-- The 6-bit values of a byte sequence, group by group (43_encoder.md R182, R183). -/
def regroupAll : List Byte → List Sextet
  | b0 :: b1 :: b2 :: rest => regroup3 b0 b1 b2 ++ regroupAll rest
  | [b0, b1] => regroup2 b0 b1
  | [b0] => regroup1 b0
  | [] => []

/-- The values fill their bytes, but for fill bits that are 0 (43_encoder.md R183). -/
def ZeroFill : List Sextet → Prop
  | _ :: _ :: _ :: _ :: rest => ZeroFill rest
  | [_, _, v2] => v2.extractLsb' 0 2 = 0
  | [_, v1] => v1.extractLsb' 0 4 = 0
  | [_] => False
  | [] => True

theorem zeroFill_iff (vs : List Sextet) :
    ZeroFill vs ↔ vs.length % 4 ≠ 1 ∧
      (vs.length % 4 = 3 → (vs.getLastD 0).extractLsb' 0 2 = 0) ∧
      (vs.length % 4 = 2 → (vs.getLastD 0).extractLsb' 0 4 = 0) := by
  fun_induction ZeroFill vs with
  | case1 v0 v1 v2 v3 rest ih =>
    rw [ih]
    cases rest with
    | nil => simp
    | cons v rest =>
      have hlen (n : Nat) : (n + 1 + 1 + 1 + 1) % 4 = n % 4 := Nat.add_mod_right n 4
      simp [hlen]
  | case2 => simp
  | case3 => simp
  | case4 => simp
  | case5 => simp

/-- Regrouping and unpacking are inverse to each other, on the values with zero fill bits. -/
theorem regroupAll_eq_iff (bs : List Byte) (vs : List Sextet) :
    regroupAll bs = vs ↔ unpackAll vs = bs ∧ ZeroFill vs := by
  constructor
  · rintro rfl
    fun_induction regroupAll bs with
    | case1 b0 b1 b2 rest ih =>
      obtain ⟨hrest, hfill⟩ := ih
      exact ⟨congrArg₂ (· ++ ·) ((regroup3_eq_iff b0 b1 b2 _ _ _ _).mp rfl) hrest, hfill⟩
    | case2 b0 b1 => exact (regroup2_eq_iff b0 b1 _ _ _).mp rfl
    | case3 b0 => exact (regroup1_eq_iff b0 _ _).mp rfl
    | case4 => exact ⟨rfl, trivial⟩
  · rintro ⟨rfl, hfill⟩
    fun_induction ZeroFill vs with
    | case1 v0 v1 v2 v3 rest ih =>
      exact congrArg₂ (· ++ ·) ((regroup3_eq_iff _ _ _ v0 v1 v2 v3).mpr rfl) (ih hfill)
    | case2 v0 v1 v2 => exact (regroup2_eq_iff _ _ v0 v1 v2).mpr ⟨rfl, hfill⟩
    | case3 v0 v1 => exact (regroup1_eq_iff _ v0 v1).mpr ⟨rfl, hfill⟩
    | case4 => exact hfill.elim
    | case5 => rfl

@[simp] theorem unpackAll_regroupAll (bs : List Byte) : unpackAll (regroupAll bs) = bs :=
  ((regroupAll_eq_iff bs _).mp rfl).1

theorem zeroFill_regroupAll (bs : List Byte) : ZeroFill (regroupAll bs) :=
  ((regroupAll_eq_iff bs _).mp rfl).2

/-- How many values `n` bytes have: `ceil(8n / 6)`. -/
theorem length_regroupAll (bs : List Byte) : (regroupAll bs).length = symbolCount bs.length := by
  have hlen := congrArg List.length (unpackAll_regroupAll bs)
  obtain ⟨hgroup, -⟩ := (zeroFill_iff _).mp (zeroFill_regroupAll bs)
  rw [unpackAll_length] at hlen
  have hcases : (regroupAll bs).length % 4 = 0 ∨ (regroupAll bs).length % 4 = 2 ∨
      (regroupAll bs).length % 4 = 3 := by omega
  unfold symbolCount
  rcases hcases with h | h | h <;> omega

/-! ### `encode` -/

/-- How many padding symbols the output for `n` bytes has (43_encoder.md R184). -/
def padCount (n : Nat) : Nat := (3 - n % 3) % 3

/-- The padding completes the last group of 4 (43_encoder.md R186). -/
theorem symbolCount_add_padCount (n : Nat) : symbolCount n + padCount n = 4 * ((n + 2) / 3) := by
  unfold symbolCount padCount
  omega

/-- The encoder's output is the symbols of all values, then the padding. -/
theorem encodeBytes_eq (c : Config) (bs : List Byte) :
    encodeBytes c bs =
      (regroupAll bs).map (encLut c) ++ List.replicate (padCount bs.length) pad := by
  fun_induction encodeBytes c bs with
  | case1 b0 b1 b2 rest ih =>
    have hpads : padCount (rest.length + 3) = padCount rest.length := by simp [padCount]
    simp [ih, regroupAll, padGroup, regroup3, hpads]
  | case2 b0 b1 => rfl
  | case3 b0 => rfl
  | case4 => rfl

/-- Elements that are bytes pass the range check (43_encoder.md R180, R181). -/
theorem b64Encode_of_bytes (c : Config) {a : List Nat} (h : ∀ u ∈ a, u ≤ 0xFF) :
    b64Encode c a = .ok (encodeBytes c (a.map byteOf)) := by
  rw [b64Encode, firstWide_eq_none_iff.mpr h]

/-- Settles O43: the encoder's output is symbols of the alphabet, then the padding, all of it no
whitespace. -/
theorem encoderOutputIsEncodedString : Obligations.EncoderOutputIsEncodedString := by
  unfold Obligations.EncoderOutputIsEncodedString
  intro c a out h
  obtain rfl := eq_encodeBytes_of_b64Encode h
  refine ⟨by rw [encodeBytes_length, List.length_map], (regroupAll (a.map byteOf)).map (encLut c),
    ?_, List.forall_mem_map.mpr fun v _ => encLut_mem c v, fun b => isWs_of_mem_encodeBytes⟩
  rw [encodeBytes_eq, List.length_map]
  rfl

end Sys2Proof.Machine
end

section
/-! The round trips (43_encoder.md R188, R189): the canonical strings are what `encode` yields, and `decode`
takes symbols with full padding back to the bytes of their values, in both `PAD_STRIP` modes. -/

namespace Sys2Proof.Machine

/-! ### `decode` of symbols with full padding -/

/-- The symbols of `vs`, then `p` padding symbols, as input elements. -/
def paddedSymbols (c : Config) (vs : List Sextet) (p : Nat) : List Nat :=
  (vs.map fun v => (encLut c v).toNat) ++ List.replicate p pad.toNat

@[simp] theorem length_paddedSymbols (c : Config) (vs : List Sextet) (p : Nat) :
    (paddedSymbols c vs p).length = vs.length + p := by simp [paddedSymbols]

@[simp] theorem normalizeWs_paddedSymbols (c : Config) (vs : List Sextet) (p : Nat) :
    normalizeWs (paddedSymbols c vs p) = paddedSymbols c vs p := by
  rw [normalizeWs_eq_self_iff, paddedSymbols, List.forall_mem_append]
  refine ⟨List.forall_mem_map.mpr fun v _ => isWs_encLut c v, fun u hu => ?_⟩
  rw [List.eq_of_mem_replicate hu]
  decide

/-- No symbol is padding, so the trailing padding is the padding that was put there. -/
@[simp] theorem trailingPads_paddedSymbols (c : Config) (vs : List Sextet) (p : Nat) :
    trailingPads (paddedSymbols c vs p) = p := by
  have hpads : ∀ u ∈ List.replicate p pad.toNat, isPad u = true := fun u hu => by
    rw [List.eq_of_mem_replicate hu]
    decide
  have hsyms : (vs.map fun v => (encLut c v).toNat).reverse.takeWhile isPad = [] := by
    rw [← List.map_reverse]
    cases vs.reverse with
    | nil => rfl
    | cons v vs => simp
  rw [trailingPads, paddedSymbols, List.reverse_append, List.reverse_replicate,
    List.takeWhile_append_of_pos hpads, hsyms]
  simp

/-- Full padding is removed, whatever the mode. -/
theorem decodedCore_paddedSymbols (c : Config) {vs : List Sextet} {p : Nat}
    (hfull : (vs.length + p) % 4 = 0) (hp : p ≤ 2) :
    decodedCore c (paddedSymbols c vs p) = vs.map fun v => (encLut c v).toNat := by
  have hremoved : padsRemoved c.padStrip (paddedSymbols c vs p) = p := by
    rw [padsRemoved_eq, if_pos (.inr (by simpa using hfull)), trailingPads_paddedSymbols]
    omega
  rw [decodedCore, normalizeWs_paddedSymbols, coreOf, hremoved]
  simp [paddedSymbols]

theorem b64Decode_paddedSymbols (c : Config) {vs : List Sextet} {p : Nat}
    (hfull : (vs.length + p) % 4 = 0) (hp : p ≤ 2) :
    b64Decode c (paddedSymbols c vs p) = .ok (unpackAll vs) := by
  have hcore := decodedCore_paddedSymbols c hfull hp
  have hok : DecodeOutcome c (paddedSymbols c vs p)
      (.ok (unpackAll ((decodedCore c (paddedSymbols c vs p)).filterMap (decLut c)))) := by
    refine .ok ?_ ?_ ?_
    · rw [normalizeWs_paddedSymbols, length_paddedSymbols]
      omega
    · rw [hcore, List.length_map]
      omega
    · rw [hcore]
      exact List.forall_mem_map.mpr fun v _ => Option.isSome_of_mem (decLut_encLut c v)
  rw [hok.eq_b64Decode, hcore, filterMap_decLut_symbols]

/-! ### The encoder's output as a string -/

/-- `encode` of a byte sequence, as input elements. -/
def encodedString (c : Config) (bs : List Byte) : List Nat := (encodeBytes c bs).map BitVec.toNat

theorem encodedString_eq (c : Config) (bs : List Byte) :
    encodedString c bs = paddedSymbols c (regroupAll bs) (padCount bs.length) := by
  simp [encodedString, encodeBytes_eq, paddedSymbols, Function.comp_def]

theorem length_regroupAll_add_padCount (bs : List Byte) :
    (regroupAll bs).length + padCount bs.length = 4 * ((bs.length + 2) / 3) := by
  rw [length_regroupAll, symbolCount_add_padCount]

theorem padCount_le (n : Nat) : padCount n ≤ 2 := by
  unfold padCount
  omega

theorem b64Decode_encodedString (c : Config) (bs : List Byte) :
    b64Decode c (encodedString c bs) = .ok bs := by
  have hfull := length_regroupAll_add_padCount bs
  rw [encodedString_eq, b64Decode_paddedSymbols c (by omega) (padCount_le _), unpackAll_regroupAll]

theorem b64Encode_bytes (c : Config) (bs : List Byte) :
    b64Encode c (bs.map BitVec.toNat) = .ok (encodeBytes c bs) := by
  have hbytes : (bs.map BitVec.toNat).map byteOf = bs := by simp [byteOf, Function.comp_def]
  rw [b64Encode_of_bytes c (List.forall_mem_map.mpr fun b _ => Nat.le_of_lt_succ b.isLt), hbytes]

/-- Settles O44: the values of the bytes survive the symbols, and unpack to the bytes. -/
theorem decodeOfEncodeIsIdentity : Obligations.DecodeOfEncodeIsIdentity := by
  unfold Obligations.DecodeOfEncodeIsIdentity
  exact fun c b => ⟨encodeBytes c b, b64Encode_bytes c b, b64Decode_encodedString c b⟩

/-! ### The canonical form -/

/-- The canonical strings (00_scope.md glossary) are the encoder's outputs. -/
theorem canonical_iff (c : Config) (a : List Nat) :
    Canonical c a ↔ ∃ bs, a = encodedString c bs := by
  constructor
  · rintro ⟨vs, p, ha, hfull, hp, hfill1, hfill2⟩
    have hvalues : regroupAll (unpackAll vs) = vs :=
      (regroupAll_eq_iff _ _).mpr ⟨rfl, (zeroFill_iff vs).mpr
        ⟨by omega, fun h => hfill1 (by omega), fun h => hfill2 (by omega)⟩⟩
    have hpads : padCount (unpackAll vs).length = p := by
      have hsum := length_regroupAll_add_padCount (unpackAll vs)
      have hle := padCount_le (unpackAll vs).length
      rw [hvalues] at hsum
      omega
    exact ⟨unpackAll vs, by rw [encodedString_eq, hvalues, hpads]; exact ha⟩
  · rintro ⟨bs, rfl⟩
    have hfull := length_regroupAll_add_padCount bs
    obtain ⟨-, hfill1, hfill2⟩ := (zeroFill_iff _).mp (zeroFill_regroupAll bs)
    exact ⟨regroupAll bs, padCount bs.length, encodedString_eq c bs, by omega, padCount_le _,
      fun h => hfill1 (by omega), fun h => hfill2 (by omega)⟩

/-- Settles O45: the encoder's outputs are the canonical strings, and a canonical argument is the
encoding of what it decodes to. -/
theorem reencodingIsCanonicalForm : Obligations.ReencodingIsCanonicalForm := by
  unfold Obligations.ReencodingIsCanonicalForm
  intro c a b hdecode
  refine ⟨encodeBytes c b, b64Encode_bytes c b, (canonical_iff c _).mpr ⟨b, rfl⟩,
    b64Decode_encodedString c b, fun h => (canonical_iff c a).mpr ⟨b, h.symm⟩, fun h => ?_⟩
  obtain ⟨bs, rfl⟩ := (canonical_iff c a).mp h
  rw [b64Decode_encodedString] at hdecode
  obtain rfl := OpResult.ok.inj hdecode
  rfl

end Sys2Proof.Machine
end

section
/-! `ENC` on the machine (43_encoder.md R190, R181): the symbols that the host finds are those of the payload
bits, and an element above 255 is recorded. -/

namespace Sys2Proof.Machine

/-! ### The payload bits of a byte sequence -/

theorem getMsbD_sextetAt (bs : List Byte) (j : Nat) {i : Nat} (hi : i < 6) :
    (sextetAt bs j).getMsbD i = byteBit bs (6 * j + i) := by
  unfold sextetAt
  repeat rw [BitVec.getMsbD_append]
  interval_cases i <;> simp

/-- The 6-bit values of the payload, bit by bit. -/
def payloadValues (bs : List Byte) : List Sextet :=
  (List.range (symbolCount bs.length)).map (sextetAt bs)

theorem sextetBit_payloadValues (bs : List Byte) {m : Nat} (hm : m < 6 * symbolCount bs.length) :
    sextetBit (payloadValues bs) m = byteBit bs m := by
  have hvalue : (payloadValues bs).getD (m / 6) 0 = sextetAt bs (m / 6) := by
    simp [payloadValues, List.getD_eq_getElem?_getD, Nat.div_lt_of_lt_mul hm]
  rw [sextetBit, hvalue, getMsbD_sextetAt bs _ (Nat.mod_lt m (by decide)), Nat.div_add_mod]

theorem byteAt_payloadValues (bs : List Byte) {j : Nat} (hj : j < bs.length) :
    byteAt (payloadValues bs) j = bs.getD j 0 := by
  refine BitVec.eq_of_getMsbD_eq fun i hi => ?_
  have hm : 8 * j + i < 6 * symbolCount bs.length := by
    unfold symbolCount
    omega
  rw [getMsbD_byteAt _ _ hi, sextetBit_payloadValues bs hm, byteBit,
    show (8 * j + i) / 8 = j by omega, show (8 * j + i) % 8 = i by omega]

theorem unpackAll_payloadValues (bs : List Byte) : unpackAll (payloadValues bs) = bs := by
  have hlen : (unpackAll (payloadValues bs)).length = bs.length := by
    rw [unpackAll_length, payloadValues, List.length_map, List.length_range, symbolCount]
    omega
  refine List.ext_getElem hlen fun j hj hjb => ?_
  have hbyte := (unpackAll_getD (payloadValues bs) hj).trans (byteAt_payloadValues bs hjb)
  simpa [List.getD_eq_getElem?_getD, hj, hjb] using hbyte

/-- The bits behind the last byte are 0. -/
theorem extractLsb'_sextetAt_eq_zero (bs : List Byte) {j k : Nat} (hk : k ≤ 6)
    (hbeyond : 8 * bs.length + k ≤ 6 * j + 6) : (sextetAt bs j).extractLsb' 0 k = 0 := by
  refine BitVec.eq_of_getMsbD_eq fun i hi => ?_
  have hbit : byteBit bs (6 * j + (6 - (k - i))) = false := by
    rw [byteBit, List.getD_eq_default _ _ (by omega)]
    simp
  rw [BitVec.getMsbD_extractLsb', Nat.zero_add, getMsbD_sextetAt bs j (by omega), hbit]
  simp

theorem getLastD_payloadValues (bs : List Byte) {n : Nat} (h : symbolCount bs.length = n + 1) :
    (payloadValues bs).getLastD 0 = sextetAt bs n := by
  rw [payloadValues, h, List.range_succ, List.map_append, List.map_singleton, List.getLastD_concat]

theorem zeroFill_payloadValues (bs : List Byte) : ZeroFill (payloadValues bs) := by
  have hlast {k : Nat} (hk : 0 < k) (hk6 : k ≤ 6)
      (hfill : 8 * bs.length + k = 6 * symbolCount bs.length) :
      ((payloadValues bs).getLastD 0).extractLsb' 0 k = 0 := by
    obtain ⟨n, hn⟩ : ∃ n, symbolCount bs.length = n + 1 := Nat.exists_eq_add_one.mpr (by omega)
    rw [getLastD_payloadValues bs hn]
    exact extractLsb'_sextetAt_eq_zero bs hk6 (by omega)
  have hlen : (payloadValues bs).length = symbolCount bs.length := by simp [payloadValues]
  rw [zeroFill_iff, hlen]
  unfold symbolCount at hlast ⊢
  exact ⟨by omega, fun h => hlast (by decide) (by decide) (by omega),
    fun h => hlast (by decide) (by decide) (by omega)⟩

/-- The regrouper's values are those of the payload bits (43_encoder.md R182, R183). -/
theorem regroupAll_eq_payloadValues (bs : List Byte) : regroupAll bs = payloadValues bs :=
  (regroupAll_eq_iff _ _).mpr ⟨unpackAll_payloadValues bs, zeroFill_payloadValues bs⟩

/-- Element `j` of the encoder's output. -/
theorem encodeBytes_getD (c : Config) (bs : List Byte) {j : Nat} (hj : j < (encodeBytes c bs).length) :
    (encodeBytes c bs).getD j 0 =
      if j < symbolCount bs.length then encLut c (sextetAt bs j) else pad := by
  have hsyms : ((regroupAll bs).map (encLut c)).length = symbolCount bs.length := by
    rw [List.length_map, length_regroupAll]
  rw [encodeBytes_eq] at hj ⊢
  rw [List.length_append, hsyms, List.length_replicate] at hj
  split
  · next h =>
    rw [List.getD_append _ _ _ _ (by omega), regroupAll_eq_payloadValues]
    simp [payloadValues, List.getD_eq_getElem?_getD, h]
  · next h =>
    rw [List.getD_append_right _ _ _ _ (by omega), hsyms, List.getD_replicate _ (by omega)]

/-! ### `ENC` on an argument that fits -/

/-- A command on an argument that fits commits what the codec computes. -/
theorem exec_of_codec (command : Instr) {s : State} {r : OpResult} (hfits : s.inLen ≤ s.cfg.inCap)
    (h : codec command s.cfg s.argument = r) : exec command s = .next (commit s r) := by
  rw [exec_eq_commit, resultOf_eq_codec command hfits, h]

/-- Settles O40: the host finds the symbols of the payload bits. -/
theorem encCompletesWithSymbols : Obligations.EncCompletesWithSymbols := by
  unfold Obligations.EncCompletesWithSymbols
  intro s hfits hbytes
  have hencode : b64Encode s.cfg s.argument = .ok (encodeBytes s.cfg (s.argument.map byteOf)) :=
    b64Encode_of_bytes s.cfg (List.forall_mem_map.mpr fun i hi => hbytes i (List.mem_range.mp hi))
  have hlen : (s.argument.map byteOf).length = s.inLen := by simp
  obtain ⟨hstatus, hout, hpos, hval, helems⟩ :=
    holdsResult_commit s (.ok (encodeBytes s.cfg (s.argument.map byteOf)))
  refine ⟨_, exec_of_codec .enc hfits hencode, hstatus, ?_, hpos, hval, fun j hj => ?_⟩
  · rw [hout, encodeBytes_length, hlen]
  · rw [hout] at hj
    rw [helems j hj, encodeBytes_getD s.cfg _ hj, hlen]

/-- The range check stops at the first element above 255 (43_encoder.md R181). -/
theorem firstWide_eq_some {a : List Nat} {i : Nat} {u : Nat} (hu : a[i]? = some u) (hwide : u > 0xFF)
    (hbefore : ∀ k w, k < i → a[k]? = some w → w ≤ 0xFF) : firstWide a = some (u, i) := by
  obtain ⟨hi, rfl⟩ := List.getElem?_eq_some_iff.mp hu
  refine List.find?_eq_some_iff_getElem.mpr ⟨decide_eq_true hwide, i, by simpa using hi, by simp,
    fun k hk => ?_⟩
  simpa using hbefore k _ hk (List.getElem?_eq_getElem (hk.trans hi))

/-- Settles O41: the range check's element and index, committed. -/
theorem encWideElementRecordsByteRange : Obligations.EncWideElementRecordsByteRange := by
  unfold Obligations.EncWideElementRecordsByteRange
  intro s i hfits hi hwide hbefore
  have hfirst : firstWide s.argument = some (s.inElem i, i) := by
    refine firstWide_eq_some (argument_getElem? s hi) hwide fun k w hk hw => ?_
    rw [argument_getElem? s (hk.trans hi)] at hw
    obtain rfl := Option.some.inj hw
    exact hbefore k hk
  have hencode : b64Encode s.cfg s.argument = .fail .byteRange .none i (s.inElem i) := by
    rw [b64Encode, hfirst]
  rw [exec_of_codec .enc hfits hencode, ← doneStatus_byteRange]
  rfl

end Sys2Proof.Machine
end

section
/-! Program P1 of 95_test_vectors.md on the machine: `CALL_ENC`, `MOVE`, `DEC`, `WAIT`. -/

namespace Sys2Proof.Machine

/-- No run changes the configuration. -/
theorem run_cfg {k : Nat} {s t : State} (h : Host.Core.run Sys2Proof.core k s = .next t) :
    t.cfg = s.cfg := by
  induction k generalizing s with
  | zero =>
    rw [run_zero] at h
    cases h
    rfl
  | succ k ih =>
    rw [run_succ] at h
    exact (ih h).trans (stepState_cfg s)

/-- The elements of a successful result, zero-extended, as `MOVE` copies them. -/
theorem map_outElem_of_holdsResult {t : State} {out : List Byte} (h : t.holdsResult (.ok out)) :
    ((List.range t.outLen).map fun j => (t.outElem j).toNat) = out.map BitVec.toNat := by
  obtain ⟨-, hlen, -, -, helems⟩ := h
  refine List.ext_getElem (by simp [hlen]) fun j _ hj => ?_
  rw [List.length_map] at hj
  simp [helems j hj, hj, List.getD_eq_getElem?_getD]

/-- A command and its `WAIT` leave what the command computes of the argument that is there. -/
theorem command_computes_codec (command : Instr) {s : State} {rest : List HostStep}
    (hb : s.busy = false) (hr : s.resetIn = false)
    (hs : s.script = [lineCmd (encode command), .wait] ++ rest) (hlen : s.inLen ≤ s.cfg.inCap) :
    ∃ (k : Nat) (t : State), Host.Core.run Sys2Proof.core k s = .next t ∧ t.script = rest ∧
      t.holdsResult (codec command s.cfg s.argument) := by
  obtain ⟨T, l, k, hrun, -⟩ := runsTo_command hb hr hs
  rw [← commit_withTurnsSeen, resultOf_eq_codec command hlen] at hrun
  obtain ⟨-, -, -, -, -, -, hscript, -⟩ :=
    commit_frame (((accept s (encode command)).setScript rest).withTurnsSeen T l)
      (codec command s.cfg s.argument)
  exact ⟨k, _, hrun, hscript, holdsResult_commit _ _⟩

/-- Settles O55: `CALL_ENC` leaves the encoded string, `MOVE` makes it the argument, and its decode is
the bytes. -/
theorem roundTripProgramReturnsBytes : Obligations.RoundTripProgramReturnsBytes := by
  unfold Obligations.RoundTripProgramReturnsBytes
  intro s b rest hb hr hs hfits hfitsOut
  obtain ⟨k, t, hrun, -, -, hbt, hrt, hst, -, -, hresult⟩ :=
    callEncComputesEncode s (b.map BitVec.toNat) _ hb hr hs (by simpa using hfits)
      (List.forall_mem_map.mpr fun v _ => byte_lt_two_pow_cuW s.cfg v)
  rw [b64Encode_bytes] at hresult
  have hlen : t.outLen ≤ t.cfg.inCap := by
    obtain ⟨-, hout, -⟩ := hresult
    rwa [run_cfg hrun, hout, encodeBytes_length]
  obtain ⟨k', u, hrun', -, -, hbu, hru, hsu, hinLen, -, -, hcfg, -, harg⟩ :=
    moveCopiesResultToArgument t _ hbt hrt hst hlen
  rw [map_outElem_of_holdsResult hresult, ← run_cfg hrun, ← hcfg] at harg
  obtain ⟨k'', v, hrun'', hscript, hdecoded⟩ :=
    command_computes_codec .dec hbu hru hsu (by rwa [hinLen, hcfg])
  have hbytes : codec .dec u.cfg u.argument = .ok b := harg ▸ b64Decode_encodedString u.cfg b
  exact ⟨_, v, run_trans (run_trans hrun hrun') hrun'', hscript, hbytes ▸ hdecoded⟩

end Sys2Proof.Machine
end

section
/-! Outcomes and their records (60_exceptions.md R211 to R219, R225) and the copies of the block (R232). -/

namespace Sys2Proof.Machine

/-! ### The failures of each command -/

/-- The failures that a command can record (60_exceptions.md R214). -/
def commandFailures : Instr → List (Err × Sub)
  | .enc => [(.byteRange, .none), (.length, .none)]
  | .dec => [(.invalidCharacter, .len1), (.invalidCharacter, .padlen), (.invalidCharacter, .badchar),
      (.invalidCharacter, .dangling), (.length, .none)]

theorem b64Encode_failure_mem {c : Config} {a : List Nat} {e : Err} {u : Sub} {p v : Nat}
    (h : b64Encode c a = .fail e u p v) : (e, u) ∈ commandFailures .enc := by
  unfold b64Encode at h
  split at h <;> cases h
  decide

theorem b64Decode_failure_mem {c : Config} {a : List Nat} {e : Err} {u : Sub} {p v : Nat}
    (h : b64Decode c a = .fail e u p v) : (e, u) ∈ commandFailures .dec := by
  cases b64Decode_eq_iff.mp h <;> decide

/-- `LengthError` comes before the command's own tests (60_exceptions.md R216, R217). -/
theorem resultOf_of_long (i : Instr) {s : State} (h : s.inLen > s.cfg.inCap) :
    resultOf i s = .fail .length .none s.inLen 0 := by
  cases i <;> exact if_pos h

/-- A long argument fails with `LengthError`, any other as its command's codec does. -/
theorem resultOf_failure_mem {i : Instr} {s : State} {e : Err} {u : Sub} {p v : Nat}
    (h : resultOf i s = .fail e u p v) : (e, u) ∈ commandFailures i := by
  rcases Nat.lt_or_ge s.cfg.inCap s.inLen with hlong | hfits
  · rw [resultOf_of_long i hlong] at h
    cases h
    cases i <;> decide
  · rw [resultOf_eq_codec i hfits] at h
    cases i with
    | enc => exact b64Encode_failure_mem h
    | dec => exact b64Decode_failure_mem h

/-- The codes of a command's failures, in `ERR` and `SUB` (60_exceptions.md R211, R213). -/
theorem commandFailures_codes (i : Instr) : ∀ k ∈ commandFailures i,
    (i = .enc → k.1.code = 2 ∨ k.1.code = 4) ∧ (i = .dec → k.1.code = 1 ∨ k.1.code = 4) ∧
      (k.2.code ≠ 0 ↔ k.1.code = 1) ∧ k.2.code ≤ 4 := by
  cases i <;> decide

theorem commandFailures_subset (i : Instr) : commandFailures i ⊆ failureKinds := by
  cases i <;> decide

/-- Settles O30: a success has the codes 0, and a failure those of its command's list. -/
theorem eachCommandHasItsFailures : Obligations.EachCommandHasItsFailures := by
  unfold Obligations.EachCommandHasItsFailures
  intro i s t ht
  rw [exec_eq_commit] at ht
  cases ht
  rw [commit_err, commit_sub]
  cases hresult : resultOf i s with
  | ok out =>
    have hcodes : ((0 : BitVec 3) ≠ 0 ↔ (0 : BitVec 3) = 1) ∧ (0 : BitVec 3) ≤ 4 := by decide
    exact ⟨fun _ => .inl rfl, fun _ => .inl rfl, hcodes⟩
  | fail err sub pos val =>
    obtain ⟨henc, hdec, hsub, hmax⟩ := commandFailures_codes i _ (resultOf_failure_mem hresult)
    exact ⟨fun h => .inr (henc h), fun h => .inr (hdec h), hsub, hmax⟩

/-! ### What an outcome writes -/

/-- Settles O29: a success clears the record; a failure's code is not 0, and its commit writes the
record. -/
theorem failureWritesOnlyTheRecord : Obligations.FailureWritesOnlyTheRecord := by
  unfold Obligations.FailureWritesOnlyTheRecord
  intro i s
  refine ⟨_, exec_eq_commit i s, commit_done s _, commit_busy s _, ?_⟩
  rw [commit_err, commit_sub]
  cases hresult : resultOf i s with
  | ok out => exact ⟨fun _ => ⟨rfl, rfl, rfl⟩, fun h => absurd rfl h⟩
  | fail err sub pos val =>
    have hcode : err.code ≠ 0 :=
      failureKinds_code_ne_zero (commandFailures_subset i (resultOf_failure_mem hresult))
    exact ⟨fun h => absurd h hcode, fun _ => rfl⟩

/-- An input buffer's encoding is longer than the buffer (43_encoder.md R186). -/
theorem inCap_lt_outCap (c : Config) : c.inCap < c.outCap := by
  obtain ⟨-, hcap, -⟩ := config_facts c
  unfold Params.outCap
  omega

/-- Settles O31: the length is tested first; the capacities are those of a well-formed configuration. -/
theorem longArgumentRecordsLengthError : Obligations.LongArgumentRecordsLengthError := by
  unfold Obligations.LongArgumentRecordsLengthError
  refine ⟨fun i s hlong => ?_, fun c => ⟨?_, inCap_lt_outCap c⟩⟩
  · rw [exec_eq_commit, resultOf_of_long i hlong, ← doneStatus_length]
    rfl
  · obtain ⟨-, -, hlen, -⟩ := config_facts c
    exact Nat.le_sub_one_of_lt hlen

theorem engineResult_of_illegal {s : State} (henc : s.opLatch ≠ 0x01) (hdec : s.opLatch ≠ 0x02) :
    engineResult s = illegalResult s := by
  rw [engineResult, fetchWord, decode_eq, if_neg henc, if_neg hdec]

/-- Settles O6: the word decodes to no command, so its record is committed. -/
theorem illegalWordRecordsIllegalCommand : Obligations.IllegalWordRecordsIllegalCommand := by
  unfold Obligations.IllegalWordRecordsIllegalCommand
  intro s ha hb henc hdec
  have hresult : engineResult s.popTurn = illegalResult s.popTurn :=
    engineResult_of_illegal henc hdec
  rw [step_engine ha hb, hresult, ← doneStatus_illegalCommand]
  rfl

/-! ### `done_o` -/

/-- A host write that is not to `CMD` leaves `STATUS` alone. -/
theorem hostWrite_status (s : State) {sp : Space} {i : Nat} (h : ¬(sp = .reg ∧ i = 0)) (v : Nat) :
    (hostWrite s sp i v).status = s.status := by
  rcases hostWrite_cases s sp i v with e | ⟨-, -, hsp, hi, -⟩ | ⟨-, -, -, -, e⟩ | ⟨-, -, -, -, e⟩
  · rw [e]
  · exact absurd ⟨hsp, hi⟩ h
  all_goals rw [e]

/-- Settles O16: `done_o` is a bit of `STATUS`, which a commit, an acceptance and a reset write and no
other host write does. -/
theorem doneOutputFollowsCompletion : Obligations.DoneOutputFollowsCompletion := by
  unfold Obligations.DoneOutputFollowsCompletion
  refine ⟨fun s t ht hb => ?_, fun s c => accept_done s c,
    fun s => ⟨assertReset_done s, assertReset_done s⟩,
    fun s sp i v h => congrArg (fun w : Byte => w.getLsbD 1) (hostWrite_status s h v)⟩
  rw [engineTurn_eq, if_pos hb] at ht
  cases ht
  exact commit_done s _

/-! ### Copies -/

/-- A step of an existing copy replaces that copy by its next state. -/
theorem copiesStep_eq {cs : Copies} {k : Nat} {s : State} (hk : cs.blocks[k]? = some s) :
    cs.step k = .next { blocks := cs.blocks.set k (stepState s) } := by
  simp only [Copies.step, hk, step_eq]

/-- Settles O27: the list of copies changes at index `k` only. -/
theorem copiesDoNotAffectEachOther : Obligations.CopiesDoNotAffectEachOther := by
  unfold Obligations.CopiesDoNotAffectEachOther
  intro cs ds k s hk hstep
  rw [copiesStep_eq hk] at hstep
  cases hstep
  obtain ⟨hlt, -⟩ := List.getElem?_eq_some_iff.mp hk
  refine ⟨?_, List.length_set, fun j hj => List.getElem?_set_ne hj.symm⟩
  rw [step_eq, List.getD_eq_getElem?_getD, List.getElem?_set_self hlt, Option.getD_some]

end Sys2Proof.Machine
end

section
/-! Reset and hazards (70_reset_and_hazards.md R250, R251, R254, R270): the state of reset while the
input is asserted, a bound for completion, and the argument the host has written. -/

namespace Sys2Proof.Machine

/-! ### The registers and buffers of reset -/

/-- The registers and buffers are those of 10_state.md R50: every register is 0 and no buffer element
has been written. -/
structure State.Cleared (s : State) : Prop where
  status : s.status = 0x00
  inLen : s.inLen = 0
  outLen : s.outLen = 0
  errPos : s.errPos = 0
  errVal : s.errVal = 0
  inBuf : s.inBuf = []
  outBuf : s.outBuf = []

section cleared

variable {s : State}

/-- Held in reset, the state is that of reset (70_reset_and_hazards.md R250). -/
theorem State.Inv.cleared (hi : s.Inv) (hr : s.resetIn = true) : s.Cleared := by
  obtain ⟨hstatus, hinLen, hinBuf, houtBuf⟩ := hi.resetHeld hr
  obtain ⟨houtLen, herrPos, herrVal⟩ := hi.resetRecord hstatus
  exact ⟨hstatus, hinLen, houtLen, herrPos, herrVal, hinBuf, houtBuf⟩

theorem cleared_assertReset (s : State) : (assertReset s).Cleared :=
  ⟨rfl, rfl, rfl, rfl, rfl, rfl, rfl⟩

theorem State.Cleared.releaseReset (hc : s.Cleared) : (releaseReset s).Cleared := { hc with }

theorem State.Cleared.busy (hc : s.Cleared) : s.busy = false := by
  rw [State.busy, hc.status]
  decide

theorem State.Cleared.doneO (hc : s.Cleared) : s.doneO = false := by
  rw [State.doneO, State.done, hc.status]
  decide

theorem State.Cleared.hostRead_reg (hc : s.Cleared) (i : Nat) : hostRead s .reg i = 0 := by
  match i with
  | 0 => rfl
  | 1 => exact congrArg BitVec.toNat hc.status
  | 2 => exact hc.inLen
  | 3 => exact hc.outLen
  | 4 => exact hc.errPos
  | 5 => exact hc.errVal
  | _ + 6 => rfl

theorem State.Cleared.read_inBuf (hc : s.Cleared) (i : Nat) : Memory.read s.inBuf i = none := by
  rw [hc.inBuf, Memory.read_nil]

theorem State.Cleared.read_outBuf (hc : s.Cleared) (i : Nat) : Memory.read s.outBuf i = none := by
  rw [hc.outBuf, Memory.read_nil]

end cleared

/-! ### The level of the reset input -/

/-- While the reset input is asserted no host step but its release changes the block. -/
theorem hostStep_held_sameBlock {s : State} {h : HostStep} (hr : s.resetIn = true)
    (hne : h ≠ .reset false) : s.sameBlock (hostStep s h) := by
  cases h with
  | access a =>
    cases a with
    | read => exact State.sameBlock.refl s
    | write sp i v =>
      rw [hostStep, hostAccess, hostWrite_resetIn hr]
      exact State.sameBlock.refl s
  | wait =>
    rw [hostStep]
    split <;> exact State.sameBlock.refl s
  | move => exact State.sameBlock.refl s
  | copyOut => exact State.sameBlock.refl s
  | reset level =>
    cases level with
    | false => exact absurd rfl hne
    | true =>
      rw [hostStep, setReset, if_pos hr.symm]
      exact State.sameBlock.refl s

/-- While the reset input is asserted no turn of the host but the release changes the block. -/
theorem hostTurn_held_sameBlock {s : State} (hr : s.resetIn = true)
    (hhead : s.script.head? ≠ some (.reset false)) : s.sameBlock (hostTurn s) := by
  cases hs : s.script with
  | nil =>
    rw [hostTurn_nil hs]
    exact State.sameBlock.refl s
  | cons h rest =>
    have hne : h ≠ .reset false := fun e => hhead (by rw [hs, e, List.head?_cons])
    rw [hostTurn_cons hs]
    exact (sameBlock_setScript s rest).trans
      (hostStep_held_sameBlock (s := s.setScript rest) hr hne)

/-- The engine is idle while the reset input is asserted, and the host has no effect but by the
release. -/
theorem stepState_held_sameBlock {s : State} (hi : s.Inv) (hr : s.resetIn = true)
    (hhead : s.script.head? ≠ some (.reset false)) : s.sameBlock (stepState s) := by
  cases ha : nextAgent s with
  | engine =>
    have hstep : stepState s = s.popTurn := by simp [stepState, ha, (hi.cleared hr).busy]
    rw [hstep]
    exact sameBlock_popTurn s
  | host =>
    have hstep : stepState s = hostTurn s.popTurn := by simp [stepState, ha]
    rw [hstep]
    exact (sameBlock_popTurn s).trans (hostTurn_held_sameBlock (s := s.popTurn) hr hhead)

/-- Settles O19: the invariant makes a held state cleared, and neither agent's turn changes its
block. -/
theorem heldResetKeepsResetState : Obligations.HeldResetKeepsResetState := by
  unfold Obligations.HeldResetKeepsResetState
  refine ⟨fun s hi hr => ?_, fun s sp i v hr => hostWrite_resetIn hr sp i v,
    fun s t hi hr hhead hstep => ?_⟩
  · have hc : s.Cleared := hi.cleared hr
    exact ⟨hc.hostRead_reg, hc.busy, hc.doneO, hc.read_inBuf, hc.read_outBuf⟩
  · rw [step_eq] at hstep
    cases hstep
    exact stepState_held_sameBlock hi hr hhead

/-- Settles O18: a released input gives the state of `assertReset`; an asserted one has its level
already. -/
theorem resetAbandonsOperation : Obligations.ResetAbandonsOperation := by
  unfold Obligations.ResetAbandonsOperation
  intro s rest ha hs
  rw [step_host ha hs, hostStep]
  refine ⟨fun hr => ?_, fun hr => ?_⟩
  · have hset : setReset (s.popTurn.setScript rest) true = assertReset (s.popTurn.setScript rest) := by
      simp [setReset, hr]
    have hc := cleared_assertReset (s.popTurn.setScript rest)
    exact ⟨_, congrArg _ hset, rfl, hc.status, hc.doneO, hc.busy, hc.inLen, hc.outLen, hc.errPos,
      hc.errVal, hc.read_inBuf, hc.read_outBuf, rfl, rfl, rfl⟩
  · have hset : setReset (s.popTurn.setScript rest) true = s.popTurn.setScript rest := if_pos hr.symm
    rw [hset]
    rfl

/-- Settles O20: the step is `releaseReset`, which leaves a cleared block cleared, and an idle released
block accepts the word. -/
theorem releasedResetAcceptsCommand : Obligations.ReleasedResetAcceptsCommand := by
  unfold Obligations.ReleasedResetAcceptsCommand
  intro s rest ha hs
  rw [step_host ha hs, hostStep, setReset_false]
  refine ⟨rfl, fun hi hr => ⟨_, rfl, ?_⟩⟩
  have hpop : (s.popTurn.setScript rest).Inv :=
    hi.of_sameBlock ((sameBlock_popTurn s).trans (sameBlock_setScript _ rest))
  have hc : (releaseReset (s.popTurn.setScript rest)).Cleared := (hpop.cleared hr).releaseReset
  refine ⟨hc.busy, hc.doneO, hc.hostRead_reg, fun c => ?_⟩
  rw [hostWrite_idle hc.busy rfl, regWrite, BitVec.ofNat_toNat, BitVec.setWidth_eq]
  rfl

/-! ### Completion -/

/-- A busy block whose next turn is the engine's is idle after it. -/
theorem stepState_busy_of_engine {s : State} (ha : nextAgent s = .engine) (hb : s.busy = true) :
    (stepState s).busy = false := by
  simp [stepState, ha, hb]

/-- By induction on the turns fixed beforehand: after them the engine has its turn, and any turn that
ends `BUSY` earlier, the engine's or a reset by the host, is an end as well. -/
theorem exists_run_idle (T : List Agent) {s : State} (hT : s.turns = T) (hb : s.busy = true) :
    ∃ (k : Nat) (t : State), k ≤ T.length + 1 ∧ Host.Core.run Sys2Proof.core k s = .next t ∧
      t.busy = false := by
  induction T generalizing s with
  | nil =>
    have ha : nextAgent s = .engine := by simp [nextAgent, hT, hb]
    exact ⟨1, _, Nat.le_refl 1, run_one s, stepState_busy_of_engine ha hb⟩
  | cons a T ih =>
    cases hnext : (stepState s).busy with
    | false => exact ⟨1, _, Nat.succ_le_succ (Nat.zero_le _), run_one s, hnext⟩
    | true =>
      have hturns : (stepState s).turns = T := by rw [stepState_turns, hT, List.tail_cons]
      obtain ⟨k, t, hk, hrun, hidle⟩ := ih hturns hnext
      exact ⟨k + 1, t, Nat.succ_le_succ hk, (run_succ k s).trans hrun, hidle⟩

/-- Settles O25: the fixed turns run out. -/
theorem acceptedCommandCompletes : Obligations.AcceptedCommandCompletes := by
  unfold Obligations.AcceptedCommandCompletes
  exact fun s hb => exists_run_idle s.turns rfl hb

/-! ### A written argument -/

/-- The value of a written element does not depend on the seed of the unspecified values. -/
theorem inElem_withSeed_of_written {s : State} {i : Nat} (hw : (Memory.read s.inBuf i).isSome = true)
    (seed : Nat) : State.inElem { s with freeSeed := seed } i = s.inElem i := by
  obtain ⟨v, hv⟩ := Option.isSome_iff_exists.mp hw
  simp [State.inElem, hv]

/-- A commit neither reads nor writes the seed. -/
theorem commit_withSeed (s : State) (seed : Nat) (r : OpResult) :
    commit { s with freeSeed := seed } r = { commit s r with freeSeed := seed } := by
  cases r <;> rfl

/-- Settles O33: the result is a function of the argument, and a commit is blind to the seed. -/
theorem writtenArgumentFixesOutcome : Obligations.WrittenArgumentFixesOutcome := by
  unfold Obligations.WrittenArgumentFixesOutcome
  intro i s seed hw
  have hresult : resultOf i { s with freeSeed := seed } = resultOf i s :=
    resultOf_congr i rfl rfl fun k hk => inElem_withSeed_of_written (hw k hk) seed
  refine ⟨_, _, exec_eq_commit i s, exec_eq_commit i _, ?_⟩
  rw [hresult, commit_withSeed]

end Sys2Proof.Machine
end
